-- ==== Sys2Proof/Word.lean ====
section
/-! DEFINITION. Word.lean: the values that cross the block's boundary (a line level, the three inputs of one step)
and the widths of its data (R7, R13, R21, R22, R50). -/

namespace Sys2Proof

/-- A line level (R7, R50): `Low = 0`, `High = 1`. -/
inductive Level where
  | low
  | high
deriving DecidableEq, Repr, Inhabited

/-- The digit of a level (R50). -/
def Level.bit : Level → BitVec 1
  | .low => 0#1
  | .high => 1#1

/-- The three one-bit inputs of one step (R22): synchronous reset, the host command `start`, the line level at
this tick. -/
structure Input where
  rst : Bool
  start : Bool
  line : Level
deriving DecidableEq, Repr, Inhabited

/-- The value of the 40-bit frame register (R13, R52); bit 39 is the first bit received. -/
abbrev Frame := BitVec 40

/-- One of the five byte views of the frame (R13, R95). -/
abbrev Byte := BitVec 8

/-- A physical value in tenths, as the ports `TEMP_X10` and `HUM_X10` carry it (R21, R98). -/
abbrev Tenths := BitVec 12

/-- `NBITS` (R4): fixed by the frame format. -/
abbrev nbits : Nat := 40

/-- `NBYTES` (R4): fixed by the frame format. -/
abbrev nbytes : Nat := 5

/-- The least `w` with `n ≤ 2 ^ w`: the width of a register that holds `n` values (R4, derived parameters). -/
def leastWidth (n : Nat) : Nat := if n ≤ 1 then 0 else Nat.log2 (n - 1) + 1

end Sys2Proof
end

