-- ==== Sys2Proof/Config.lean ====
section
/-! DEFINITION. Config.lean: the parameters of one instance of the block (R4), the constraints they obey (R5), and
the free value that stands for the environment's inputs once a stimulus has run out (R34, U5). -/

namespace Sys2Proof

/-- The parameters of R4. They are constants of one instance: every step keeps them and no operation writes them.
`NBITS` and `NBYTES` are fixed by the frame format and stand in Word.lean. -/
structure Config where
  /-- `T_LOW_US`: microseconds of Low drive in the start sequence. -/
  tLowUs : Nat
  /-- `T_HIGH_US`: microseconds of High drive in the start sequence. -/
  tHighUs : Nat
  /-- `THRESH_US`: bit threshold on a High pulse, in microseconds. -/
  threshUs : Nat
  /-- `CEILING`: polls a busy-wait tolerates. -/
  ceiling : Nat
  /-- `P`: sample ticks per microsecond (OPEN in the spec, D1). -/
  ticksPerUs : Nat
  /-- `MIN_INTERVAL_S`: seconds between two exchanges, a duty of the host that no operation reads (R143). -/
  minIntervalS : Nat
deriving DecidableEq, Repr

namespace Config

/-- `T_LOW_TICKS` (R4). -/
def tLowTicks (c : Config) : Nat := c.tLowUs * c.ticksPerUs

/-- `T_HIGH_TICKS` (R4). -/
def tHighTicks (c : Config) : Nat := c.tHighUs * c.ticksPerUs

/-- `THRESH_TICKS` (R4). -/
def threshTicks (c : Config) : Nat := c.threshUs * c.ticksPerUs

/-- `W_TMR` (R4): the width of the register `tmr`. -/
def wTmr (c : Config) : Nat := leastWidth c.tLowTicks

/-- `W_CNT` (R4): the width of the registers `cnt` and `dur`. -/
def wCnt (c : Config) : Nat := leastWidth (c.ceiling + 1)

/-- The least interval between exchanges in ticks (R143): `MIN_INTERVAL_S * 1 000 000 * P`. -/
def minIntervalTicks (c : Config) : Nat := c.minIntervalS * 1000000 * c.ticksPerUs

/-- The constraints of R5; an instance that breaks one is not an instance of this block. -/
abbrev Wf (c : Config) : Prop :=
  1 ≤ c.ticksPerUs ∧ 1 ≤ c.tLowTicks ∧ 1 ≤ c.tHighTicks ∧ c.tHighTicks ≤ c.tLowTicks ∧
    c.threshTicks ≤ c.ceiling

/-- The document's literals at tick rate `p` (R4): 20 ms, 40 µs, 50 µs, 1000 polls, 1 s. -/
def default (p : Nat) : Config where
  tLowUs := 20000
  tHighUs := 40
  threshUs := 50
  ceiling := 1000
  ticksPerUs := p
  minIntervalS := 1

/-- FREE VALUE (log entry 2). The inputs presented at tick `n` when no stimulus has been laid down for that tick:
the host and the line environment are under no law (R34, U5), so nothing about this constant can be proved. -/
opaque freeInput : Nat → Input

end Config

end Sys2Proof
end

