-- ==== Sys2Proof/Machine/State.lean ====
section
/-! DEFINITION. Machine/State.lean: the state of the block (R10 to R17), what the model carries beside it, the
reasons a step can stop, and the state after reset (R23). -/

namespace Sys2Proof.Machine

/-- The register `st` (R11): eight named values and no illegal one; the codes are R55. -/
inductive St where
  | idle
  | startLow
  | startHigh
  | awaitAck
  | waitHigh
  | measureHigh
  | done
  | failed
deriving DecidableEq, Repr

/-- The register `fphase` (R17): which wait timed out; the codes are R57. -/
inductive Phase where
  | none
  | awaitAck
  | waitHigh
  | measureHigh
deriving DecidableEq, Repr

/-- The seven registers of the block: exactly its state (R10). The counters are natural numbers, as R7 has them;
that they fit the widths `W_TMR` and `W_CNT` follows from the bounds of R24 (log entry 5). -/
structure Regs where
  /-- `st`, 3 bits (R11): with `i`, the program counter. -/
  st : St
  /-- `i`, 6 bits, values 0..39 (R12): the codes 40..63 are left out of the type, as R60 allows (log entry 5). -/
  i : Fin 40
  /-- `frame`, 40 bits (R13): the bits sampled so far, the first one most significant. -/
  frame : Frame
  /-- `tmr`, `W_TMR` bits (R14): ticks spent in the current drive of the start sequence. -/
  tmr : Nat
  /-- `cnt`, `W_CNT` bits (R15): polls of the current wait that found no change. -/
  cnt : Nat
  /-- `dur`, `W_CNT` bits (R16): ticks since the rise of the pulse being measured. -/
  dur : Nat
  /-- `fphase`, 2 bits (R17). -/
  fphase : Phase
deriving DecidableEq, Repr

/-- The reset state of R23. -/
def Regs.reset : Regs where
  st := .idle
  i := 0
  frame := 0#40
  tmr := 0
  cnt := 0
  dur := 0
  fphase := .none

/-- The block at one instant: its seven registers, its configuration (R4, constant), and the inputs laid down for
the steps to come. `inputs` and `tick` are the model's own (log entries 2 and 3): the host and the line environment
choose the inputs, and no register of the block stores one (R22). -/
structure State where
  /-- The configuration of this instance (R4); no step changes it. -/
  cfg : Config
  /-- The seven registers (R10). -/
  regs : Regs
  /-- The inputs of this step and of those after it, the next one first: the stimulus of R62. -/
  inputs : List Input
  /-- The number of steps taken (R39); it indexes the free inputs that follow the stimulus. -/
  tick : Nat
deriving DecidableEq, Repr

/-- The block has no fault: "no input makes the step function undefined" (93_implementation_defined.md; R70,
R120). The type is empty, so that no meaning can answer one. -/
inductive Fault where
deriving DecidableEq, Repr

/-- The reasons a step can be refused. -/
inductive Refusal where
  /-- An operation without a meaning yet. No arm of `exec` answers it. Safe. -/
  | notModelled (mnemonic : String)
  /-- `step`, when the configuration breaks R5: "a model refuses such a configuration" (R5, U10). Safe. -/
  | illFormedConfiguration
deriving DecidableEq, Repr

/-- The machine right after reset (R23): the reset state, on the document's parameters at `P = 1` (log entry 1),
with no stimulus laid down yet. -/
def State.reset : State where
  cfg := Config.default 1
  regs := Regs.reset
  inputs := []
  tick := 0

end Sys2Proof.Machine
end

