-- ==== Sys2Proof/Machine/Ops.lean ====
section
/-! DEFINITION. Machine/Ops.lean: the shared operations over the state: the inputs of a step and the clock, writing
the registers, the register codes, entering a failure (R123), beginning an exchange (R72) and holding (R73). -/

namespace Sys2Proof.Machine

/-- The code of the register `st` (R55). -/
def stCode : St → BitVec 3
  | .idle => 0b000#3
  | .startLow => 0b001#3
  | .startHigh => 0b010#3
  | .awaitAck => 0b011#3
  | .waitHigh => 0b100#3
  | .measureHigh => 0b101#3
  | .done => 0b110#3
  | .failed => 0b111#3

/-- The state a 3-bit code stands for (R55); all eight codes are states (R11). -/
def stOfCode (code : BitVec 3) : St :=
  match code.toNat with
  | 0 => .idle
  | 1 => .startLow
  | 2 => .startHigh
  | 3 => .awaitAck
  | 4 => .waitHigh
  | 5 => .measureHigh
  | 6 => .done
  | _ => .failed

/-- The code of the register `fphase` (R57). -/
def phaseCode : Phase → BitVec 2
  | .none => 0b00#2
  | .awaitAck => 0b01#2
  | .waitHigh => 0b10#2
  | .measureHigh => 0b11#2

/-- The input presented `k` steps from now: the stimulus first, then the free inputs (R34, U5; log entry 2). -/
def State.inputAt (s : State) (k : Nat) : Input :=
  match s.inputs[k]? with
  | some x => x
  | none => Config.freeInput (s.tick + k)

/-- The input of this step (R22). -/
def State.input (s : State) : Input := s.inputAt 0

/-- Writing the registers at the end of a step (00_scope.md 7.2, `r <- v`); nothing else of the state moves (R3). -/
def State.setRegs (s : State) (r : Regs) : State := { s with regs := r }

/-- The passing of one tick (R6, R39): this step's input is used up. -/
def State.advance (s : State) : State := { s with inputs := s.inputs.tail, tick := s.tick + 1 }

/-- A step is one operation and one tick. -/
def afterTick : Host.Outcome State Fault Refusal → Host.Outcome State Fault Refusal
  | .next t => .next t.advance
  | .fault r => .fault r
  | .refused r => .refused r

/-- Failure entry, `raise Timeout(phase, idx)` (R123): the phase is saved in `fphase` and the bit index by leaving
`i` alone; every other register keeps its value. -/
def raiseTimeout (σ : Regs) (phase : Phase) : Regs := { σ with st := .failed, fphase := phase }

/-- START(σ) (R72), the same from IDLE, DONE and FAILED. It is also the only way on from a failure, and it restores
nothing (R124): every register is overwritten (R27). -/
def startExchange (σ : Regs) : Regs :=
  { σ with st := .startLow, i := 0, frame := 0#40, tmr := 0, cnt := 0, dur := 0, fphase := .none }

/-- NOP(σ) (R73): no register changes. -/
def hold (σ : Regs) : Regs := σ

/-- What a holding state does: `if in.start = 1 then START(σ) else NOP(σ)` (R70, R71, R105, R106). -/
def holdingStep (σ : Regs) (start : Bool) : Regs := if start then startExchange σ else hold σ

end Sys2Proof.Machine
end

