-- ==== Sys2Proof/Machine/Operands.lean ====
section
/-! DEFINITION. Machine/Operands.lean: the operand forms: the classes of states, the poll of the line (R32), the
views of the frame register (R13, R35, R95) and the measured duration (R88). -/

namespace Sys2Proof.Machine

/-- A holding state (00_scope.md 7.3): the block waits for START. -/
def St.isHolding : St → Bool
  | .idle | .done | .failed => true
  | .startLow | .startHigh | .awaitAck | .waitHigh | .measureHigh => false

/-- A driving state (R18): one of the two timed drives of the start sequence. -/
def St.isDriving : St → Bool
  | .startLow | .startHigh => true
  | .idle | .awaitAck | .waitHigh | .measureHigh | .done | .failed => false

/-- A polling state (00_scope.md 7.3, R32): the line is read, exactly once in the step. -/
def St.isPolling : St → Bool
  | .awaitAck | .waitHigh | .measureHigh => true
  | .idle | .startLow | .startHigh | .done | .failed => false

/-- `LineRead()` (R32): the level sampled at this step. -/
def State.lineRead (s : State) : Level := s.input.line

/-- `B[j]`, byte `j` of the frame (R13, R95): `F[39 - 8*j : 32 - 8*j]`. -/
def byteView (F : Frame) (j : Fin 5) : Byte := F.extractLsb' (32 - 8 * j.val) 8

/-- `humidity_int` (R13). -/
def humidityInt (F : Frame) : Byte := byteView F 0

/-- `humidity_dec` (R13). -/
def humidityDec (F : Frame) : Byte := byteView F 1

/-- `temp_int` (R13). -/
def tempInt (F : Frame) : Byte := byteView F 2

/-- `temp_dec` (R13). -/
def tempDec (F : Frame) : Byte := byteView F 3

/-- `checksum`, the field of the frame (R13). -/
def checksumField (F : Frame) : Byte := byteView F 4

/-- `seq[k]` of a complete frame (R35): the `k`-th bit by arrival is `frame[39 - k]`. -/
def seqBit (F : Frame) (k : Fin 40) : Bool := F.getLsbD (39 - k.val)

/-- How many bits of the current exchange `frame` holds (R24 item 5). -/
def Regs.bitsHeld (σ : Regs) : Nat :=
  match σ.st with
  | .idle | .startLow | .startHigh | .awaitAck => 0
  | .waitHigh | .measureHigh => σ.i.val
  | .done => 40
  | .failed => if σ.fphase = .awaitAck then 0 else σ.i.val

/-- The BitSequence of the document (00_scope.md 7.3): the bits sampled so far, in arrival order; bit `m` of `n` is
`frame[n - 1 - m]` (R24 item 5). -/
def Regs.bitSequence (σ : Regs) : List Bool :=
  (List.range σ.bitsHeld).map fun m => σ.frame.getLsbD (σ.bitsHeld - 1 - m)

/-- The duration that a fall classifies (R88): `dur + 1` ticks. -/
def Regs.measuredDuration (σ : Regs) : Nat := σ.dur + 1

/-- The PulseSample of the document (R16): the level that the state MEASURE_HIGH implies, and the time since the
rise. -/
def Regs.pulseSample (σ : Regs) : Option (Level × Nat) :=
  if σ.st = .measureHigh then some (.high, σ.dur) else none

end Sys2Proof.Machine
end

