-- ==== Sys2Proof/Machine/FrameDecoder.lean ====
section
/-! DEFINITION. Machine/FrameDecoder.lean: the frame decoder (R95 to R102), pure functions of a 40-bit value. -/

namespace Sys2Proof.Machine

/-- ASSEMBLE (R95): the five bytes in order of arrival. -/
def assemble (F : Frame) : List Byte :=
  [humidityInt F, humidityDec F, tempInt F, tempDec F, checksumField F]

/-- CHECKSUM (R96): the four data bytes summed modulo 256. -/
def checksum (F : Frame) : Byte :=
  BitVec.ofNat 8
    (((humidityInt F).toNat + (humidityDec F).toNat + (tempInt F).toNat + (tempDec F).toNat) % 256)

/-- VALIDATE, `Valid(F)` (R97): the checksum equals the fifth byte, and there is no second check. -/
def valid (F : Frame) : Bool := checksum F == checksumField F

/-- `H10(F) = 10 * B[0] + B[1]` (R98): the humidity in tenths. -/
def h10 (F : Frame) : Tenths := BitVec.ofNat 12 (10 * (humidityInt F).toNat + (humidityDec F).toNat)

/-- `T10(F) = 10 * B[2] + B[3]` (R98): the temperature in tenths. -/
def t10 (F : Frame) : Tenths := BitVec.ofNat 12 (10 * (tempInt F).toNat + (tempDec F).toNat)

/-- The exact value of a number of tenths: how a consumer reads `TEMP_X10` and `HUM_X10` (R21, R98). -/
def tenthsValue (v : Tenths) : ℚ := (v.toNat : ℚ) / 10

/-- `humidity(F)`, an exact rational (R98). -/
def humidity (F : Frame) : ℚ := tenthsValue (h10 F)

/-- `temperature(F)`, an exact rational (R98). -/
def temperature (F : Frame) : ℚ := tenthsValue (t10 F)

/-- The two outcomes of the decoder (R99): a Reading in tenths, or the payload-free mismatch. -/
inductive Decoded where
  | reading (temperature humidity : Tenths)
  | checksumMismatch
deriving DecidableEq, Repr

/-- DECODE (R99). -/
def decodeFrame (F : Frame) : Decoded :=
  if valid F then .reading (t10 F) (h10 F) else .checksumMismatch

end Sys2Proof.Machine
end

