-- ==== Sys2Proof/Machine/Flags.lean ====
section
/-! DEFINITION. Machine/Flags.lean: the three flags (R19) and every output port, all functions of the state alone
(R18, R20, R21), with the result codes (R56). -/

namespace Sys2Proof.Machine

/-- The result tag `res` (R19, R56). -/
inductive Res where
  | none
  | reading
  | timeout
  | checksumMismatch
deriving DecidableEq, Repr

/-- The code of the result tag (R56). -/
def resCode : Res → BitVec 2
  | .none => 0b00#2
  | .reading => 0b01#2
  | .timeout => 0b10#2
  | .checksumMismatch => 0b11#2

/-- The flag `busy` (R19). -/
def Regs.busy (σ : Regs) : Bool :=
  match σ.st with
  | .startLow | .startHigh | .awaitAck | .waitHigh | .measureHigh => true
  | .idle | .done | .failed => false

/-- The flag `done` (R19). -/
def Regs.done (σ : Regs) : Bool :=
  match σ.st with
  | .done | .failed => true
  | .idle | .startLow | .startHigh | .awaitAck | .waitHigh | .measureHigh => false

/-- The flag `res` (R19): a mismatch is reported from DONE, never from FAILED (R105, conflict C4). -/
def Regs.res (σ : Regs) : Res :=
  match σ.st with
  | .idle | .startLow | .startHigh | .awaitAck | .waitHigh | .measureHigh => .none
  | .failed => .timeout
  | .done => if valid σ.frame then .reading else .checksumMismatch

/-- The output `line_oe` (R18): true is direction Output. -/
def Regs.lineOe (σ : Regs) : Bool := σ.st.isDriving

/-- The output `line_out` (R18): the level driven while `line_oe = 1`, and High whenever it is not Low. -/
def Regs.lineOut (σ : Regs) : Level := if σ.st = .startLow then .low else .high

/-- The STATUS field `phase` (R20): `fphase`, and 0 unless `st = FAILED`. -/
def Regs.phaseField (σ : Regs) : BitVec 2 := if σ.st = .failed then phaseCode σ.fphase else 0#2

/-- The STATUS field `idx_valid` (R20): the failed wait was one of the two inside `ReadBit(i)`. -/
def Regs.idxValid (σ : Regs) : Bool :=
  match σ.st with
  | .failed =>
    match σ.fphase with
    | .waitHigh | .measureHigh => true
    | .none | .awaitAck => false
  | .idle | .startLow | .startHigh | .awaitAck | .waitHigh | .measureHigh | .done => false

/-- The STATUS field `idx` (R20). -/
def Regs.idxField (σ : Regs) : BitVec 6 := if σ.idxValid then BitVec.ofNat 6 σ.i.val else 0#6

/-- The layout of STATUS (R20), fields from bit 15 down: busy, done, st, res, phase, idx_valid, idx. -/
def packStatus (busy done : Bool) (st : BitVec 3) (res phase : BitVec 2) (idxValid : Bool) (idx : BitVec 6) :
    BitVec 16 :=
  BitVec.ofBool busy ++ BitVec.ofBool done ++ st ++ res ++ phase ++ BitVec.ofBool idxValid ++ idx

/-- The output `STATUS` (R20). -/
def Regs.status (σ : Regs) : BitVec 16 :=
  packStatus σ.busy σ.done (stCode σ.st) (resCode σ.res) σ.phaseField σ.idxValid σ.idxField

/-- The output `TEMP_X10` (R21): 0 unless there is a Reading (R108). -/
def Regs.tempX10 (σ : Regs) : Tenths := if σ.res = .reading then t10 σ.frame else 0#12

/-- The output `HUM_X10` (R21): 0 unless there is a Reading (R108). -/
def Regs.humX10 (σ : Regs) : Tenths := if σ.res = .reading then h10 σ.frame else 0#12

/-- Everything the block shows: its two line outputs and its three host registers (R18, R20, R21, R108). -/
structure Outputs where
  lineOe : Bool
  lineOut : Level
  status : BitVec 16
  tempX10 : Tenths
  humX10 : Tenths
deriving DecidableEq, Repr

/-- The outputs during a step: those of the state before it (R39, R70). -/
def Regs.outputs (σ : Regs) : Outputs where
  lineOe := σ.lineOe
  lineOut := σ.lineOut
  status := σ.status
  tempX10 := σ.tempX10
  humX10 := σ.humX10

/-- What a sensor sees of the block: the driven level, or a released line (R33, R34). -/
def Regs.lineDrive (σ : Regs) : Option Level := if σ.lineOe then some σ.lineOut else none

end Sys2Proof.Machine
end

