-- ==== Sys2Proof/Machine/BitSampler.lean ====
section
/-! DEFINITION. Machine/BitSampler.lean: the bit sampler (R85 to R92): the three bounded waits, CLASSIFY and APPEND,
and the two wire symbols. -/

namespace Sys2Proof.Machine

/-- A poll that still finds the old level (R85): the wait fails when `cnt + 1 > CEILING`, else the block stays. -/
def boundedWait (c : Config) (σ : Regs) (phase : Phase) (stay : Regs) : Regs :=
  if σ.cnt + 1 > c.ceiling then raiseTimeout σ phase else stay

/-- CLASSIFY (R89): 1 iff the duration exceeds the threshold; exactly `THRESH_TICKS` is a 0. -/
def classify (c : Config) (d : Nat) : Bool := decide (d > c.threshTicks)

/-- APPEND (R90): `F[38:0] ‖ b`. -/
def append (F : Frame) (b : Bool) : Frame := F.extractLsb' 0 39 ++ BitVec.ofBool b

/-- The fall of a pulse whose bit is `b` (R88): append, clear the counters, and go on to the next bit or, after bit
39, to DONE, where `i` stays 39. -/
def appendBit (σ : Regs) (b : Bool) : Regs :=
  if σ.i = 39 then { σ with st := .done, frame := append σ.frame b, cnt := 0, dur := 0 }
  else { σ with st := .waitHigh, i := σ.i + 1, frame := append σ.frame b, cnt := 0, dur := 0 }

/-- AwaitAck(cfg, σ, s) (R86). -/
def awaitAck (c : Config) (σ : Regs) (line : Level) : Regs :=
  match line with
  | .high => boundedWait c σ .awaitAck { σ with cnt := σ.cnt + 1 }
  | .low => { σ with st := .waitHigh, cnt := 0 }

/-- WaitHigh(cfg, σ, s) (R87). -/
def waitHigh (c : Config) (σ : Regs) (line : Level) : Regs :=
  match line with
  | .low => boundedWait c σ .waitHigh { σ with cnt := σ.cnt + 1 }
  | .high => { σ with st := .measureHigh, cnt := 0, dur := 0 }

/-- MeasureHigh(cfg, σ, s) (R88). -/
def measureHigh (c : Config) (σ : Regs) (line : Level) : Regs :=
  match line with
  | .high => boundedWait c σ .measureHigh { σ with cnt := σ.cnt + 1, dur := σ.dur + 1 }
  | .low => appendBit σ (classify c σ.measuredDuration)

/-- The operation AWAIT_ACK (R86). -/
def execAwaitAck (s : State) : Host.Outcome State Fault Refusal :=
  .next (s.setRegs (awaitAck s.cfg s.regs s.lineRead))

/-- The operation WAIT_HIGH (R87). -/
def execWaitHigh (s : State) : Host.Outcome State Fault Refusal :=
  .next (s.setRegs (waitHigh s.cfg s.regs s.lineRead))

/-- The operation MEASURE_HIGH (R88). -/
def execMeasureHigh (s : State) : Host.Outcome State Fault Refusal :=
  .next (s.setRegs (measureHigh s.cfg s.regs s.lineRead))

/-- The wire symbol SYM0 (R51, R63): the fall that ends its pulse, with the bit 0. The run lengths carry no more than
the choice of the row (log entry 7). -/
def execSym0 (_lam _h : Nat) (s : State) : Host.Outcome State Fault Refusal :=
  .next (s.setRegs (appendBit s.regs false))

/-- The wire symbol SYM1 (R51, R63): the fall that ends its pulse, with the bit 1 (log entry 7). -/
def execSym1 (_lam _h : Nat) (s : State) : Host.Outcome State Fault Refusal :=
  .next (s.setRegs (appendBit s.regs true))

end Sys2Proof.Machine
end

