-- ==== Sys2Proof/Machine/StartSequence.lean ====
section
/-! DEFINITION. Machine/StartSequence.lean: the start sequence (R80 to R82), operations START_LOW and START_HIGH. -/

namespace Sys2Proof.Machine

/-- StartLow(cfg, σ) (R80). -/
def startLow (c : Config) (σ : Regs) : Regs :=
  if σ.tmr + 1 = c.tLowTicks then { σ with st := .startHigh, tmr := 0 }
  else { σ with tmr := σ.tmr + 1 }

/-- StartHigh(cfg, σ) (R81). -/
def startHigh (c : Config) (σ : Regs) : Regs :=
  if σ.tmr + 1 = c.tHighTicks then { σ with st := .awaitAck, tmr := 0, cnt := 0 }
  else { σ with tmr := σ.tmr + 1 }

/-- The operation START_LOW (R80); it reads no input. -/
def execStartLow (s : State) : Host.Outcome State Fault Refusal :=
  .next (s.setRegs (startLow s.cfg s.regs))

/-- The operation START_HIGH (R81); it reads no input. -/
def execStartHigh (s : State) : Host.Outcome State Fault Refusal :=
  .next (s.setRegs (startHigh s.cfg s.regs))

end Sys2Proof.Machine
end

