-- ==== Sys2Proof/Machine/ExchangeControl.lean ====
section
/-! DEFINITION. Machine/ExchangeControl.lean: the dispatch of a step over the registers (R70), the operations IDLE,
START and NOP (R71 to R74), and the reset input (R140). -/

namespace Sys2Proof.Machine

/-- What the state `st` does with the inputs `start` and `line` when `rst = 0` (R70). The five busy states do not
read `start`: a START given there is lost (R74). -/
def stateStep (c : Config) (σ : Regs) (start : Bool) (line : Level) : Regs :=
  match σ.st with
  | .idle | .done | .failed => holdingStep σ start
  | .startLow => startLow c σ
  | .startHigh => startHigh c σ
  | .awaitAck => awaitAck c σ line
  | .waitHigh => waitHigh c σ line
  | .measureHigh => measureHigh c σ line

/-- `step(cfg, σ, in)` over the registers (R70): the transition function of the block. -/
def blockStep (c : Config) (σ : Regs) (inp : Input) : Regs :=
  if inp.rst then Regs.reset else stateStep c σ inp.start inp.line

/-- The registers after the successive inputs of a stimulus (R70, "a run of the block"). -/
def runBlock (c : Config) : Regs → List Input → Regs
  | σ, [] => σ
  | σ, x :: xs => runBlock c (blockStep c σ x) xs

/-- The operation IDLE (R71): it looks at `start` only. -/
def execIdle (s : State) : Host.Outcome State Fault Refusal :=
  .next (s.setRegs (holdingStep s.regs s.input.start))

/-- The host command START (R72): begins an exchange from a holding state; in a busy state it is ignored and the
operation of the state goes on (R74, log entry 6). -/
def execStart (s : State) : Host.Outcome State Fault Refusal :=
  .next (s.setRegs
    (if s.regs.st.isHolding then startExchange s.regs
     else stateStep s.cfg s.regs true s.lineRead))

/-- The host command NOP (R73): no register changes in a holding state; in a busy state the operation of the state
goes on (R70, log entry 6). -/
def execNop (s : State) : Host.Outcome State Fault Refusal :=
  .next (s.setRegs
    (if s.regs.st.isHolding then hold s.regs
     else stateStep s.cfg s.regs false s.lineRead))

/-- The reset input RST (R140): the reset state of R23, whatever the state and the other inputs are. -/
def execRst (s : State) : Host.Outcome State Fault Refusal := .next (s.setRegs Regs.reset)

end Sys2Proof.Machine
end

