-- ==== Sys2Proof/Machine/ResultView.lean ====
section
/-! DEFINITION. Machine/ResultView.lean: the result of an exchange (R105 to R111): the operations DONE and FAILED and
the result view. -/

namespace Sys2Proof.Machine

/-- A ReadFailure (R107, R115): Timeout with its phase and, for the two waits inside `ReadBit(i)`, the bit index; or
ChecksumMismatch, which carries nothing (R109). -/
inductive ReadFailure where
  | timeout (phase : Phase) (bitIndex : Option (Fin 40))
  | checksumMismatch
deriving DecidableEq, Repr

/-- The result view of R107. -/
inductive ResultView where
  | none
  | reading (temperature humidity : Tenths)
  | failure (reason : ReadFailure)
deriving DecidableEq, Repr

/-- The bit index of a Timeout, present for the two waits inside `ReadBit(i)` (R20, R109, conflict C2). -/
def Regs.bitIndex (σ : Regs) : Option (Fin 40) :=
  match σ.fphase with
  | .waitHigh | .measureHigh => some σ.i
  | .none | .awaitAck => .none

/-- `Result(σ)` (R107). FAILED with `fphase = NONE` does not occur (R24 item 6); read literally it is a Timeout with
the phase NONE, which is what STATUS shows there (log entry 8). -/
def Regs.result (σ : Regs) : ResultView :=
  match σ.st with
  | .idle | .startLow | .startHigh | .awaitAck | .waitHigh | .measureHigh => .none
  | .done =>
    match decodeFrame σ.frame with
    | .reading t h => .reading t h
    | .checksumMismatch => .failure .checksumMismatch
  | .failed => .failure (.timeout σ.fphase σ.bitIndex)

/-- The operation DONE (R105): a holding state; the decoder takes no step of its own. -/
def execDone (s : State) : Host.Outcome State Fault Refusal :=
  .next (s.setRegs (holdingStep s.regs s.input.start))

/-- The operation FAILED (R106): a holding state, terminal for the exchange only. -/
def execFailed (s : State) : Host.Outcome State Fault Refusal :=
  .next (s.setRegs (holdingStep s.regs s.input.start))

end Sys2Proof.Machine
end

