-- ==== Sys2Proof/Syntax.lean ====
section
/-! DEFINITION. Syntax.lean: the operations of the block, one constructor per row of spec/opcode_table.json (R63). -/

namespace Sys2Proof

/-- The thirteen rows of the operation table (R63): eight state operations (format S, R55), the two host commands
and the reset input (format H, R59, R140), and the two wire symbols (format W, R51). -/
inductive Instr where
  /-- Row IDLE (R71). -/
  | idle
  /-- Row START_LOW (R80). -/
  | startLow
  /-- Row START_HIGH (R81). -/
  | startHigh
  /-- Row AWAIT_ACK (R86). -/
  | awaitAck
  /-- Row WAIT_HIGH (R87). -/
  | waitHigh
  /-- Row MEASURE_HIGH (R88). -/
  | measureHigh
  /-- Row DONE (R105). -/
  | done
  /-- Row FAILED (R106). -/
  | failed
  /-- Row START (R72). -/
  | start
  /-- Row NOP (R73). -/
  | nop
  /-- Row RST (R140). -/
  | rst
  /-- Row SYM0 (R51, R89): the Low run of `lam` samples and the High run of `h` samples of a data bit 0. -/
  | sym0 (lam h : Nat)
  /-- Row SYM1 (R51, R89): the Low run of `lam` samples and the High run of `h` samples of a data bit 1. -/
  | sym1 (lam h : Nat)
deriving DecidableEq, Repr

end Sys2Proof
end

