-- ==== Sys2Proof/Machine/Dispatch.lean ====
section
/-! DEFINITION. Machine/Dispatch.lean: one arm per operation of the table (R63). -/

namespace Sys2Proof.Machine

def exec (i : Instr) (s : State) : Host.Outcome State Fault Refusal :=
  match i with
  | .idle => Sys2Proof.Machine.execIdle s
  | .startLow => Sys2Proof.Machine.execStartLow s
  | .startHigh => Sys2Proof.Machine.execStartHigh s
  | .awaitAck => Sys2Proof.Machine.execAwaitAck s
  | .waitHigh => Sys2Proof.Machine.execWaitHigh s
  | .measureHigh => Sys2Proof.Machine.execMeasureHigh s
  | .done => Sys2Proof.Machine.execDone s
  | .failed => Sys2Proof.Machine.execFailed s
  | .start => Sys2Proof.Machine.execStart s
  | .nop => Sys2Proof.Machine.execNop s
  | .rst => Sys2Proof.Machine.execRst s
  | .sym0 lam h => Sys2Proof.Machine.execSym0 lam h s
  | .sym1 lam h => Sys2Proof.Machine.execSym1 lam h s

end Sys2Proof.Machine
end

