-- ==== Sys2Proof/WellFormed.lean ====
section
/-! DEFINITION. WellFormed.lean: which operations the encodings admit. Only the wire symbols have operands (R51). -/

namespace Sys2Proof

/-- A Low run that WAIT_HIGH lets pass (R51, R91 item 3): `1 <= lam <= CEILING + 1`. -/
abbrev LowRunOk (c : Config) (lam : Nat) : Prop := 1 ≤ lam ∧ lam ≤ c.ceiling + 1

/-- The operand ranges of R51 (table row fields `lam` and `h`): SYM0 iff `1 <= h <= THRESH_TICKS`, SYM1 iff
`THRESH_TICKS < h <= CEILING + 1`. Every other row has no operand. -/
abbrev Instr.Wf (c : Config) (i : Instr) : Prop :=
  match i with
  | .idle | .startLow | .startHigh | .awaitAck | .waitHigh | .measureHigh | .done | .failed => True
  | .start | .nop | .rst => True
  | .sym0 lam h => LowRunOk c lam ∧ 1 ≤ h ∧ h ≤ c.threshTicks
  | .sym1 lam h => LowRunOk c lam ∧ c.threshTicks < h ∧ h ≤ c.ceiling + 1

end Sys2Proof
end

