-- ==== Sys2Proof/Decode.lean ====
section
/-! DEFINITION. Decode.lean: the encodings of the operations (R51, R55, R59, R140), a decoder that is total and
rejects by name, the encoder, and the operation table as data. -/

namespace Sys2Proof

/-- The encoded forms of an operation. The block has no instruction words (R61, R62): each format lives on wires of
its own. -/
inductive OpWord where
  /-- Format S: the 3-bit code in the register `st` (R55). -/
  | state (code : BitVec 3)
  /-- Format H: the host command on the input `start` (R59). -/
  | command (start : BitVec 1)
  /-- The reset input `rst` (R140). -/
  | reset (rst : BitVec 1)
  /-- Format W: a wire symbol, as successive samples of the line, oldest first (R51). -/
  | wire (samples : List Level)
deriving DecidableEq, Repr

/-- Why an encoded form stands for no operation of the table. -/
inductive DecodeError where
  /-- `rst = 0` selects no row by itself: the state register does (R63). -/
  | resetNotAsserted
  /-- The samples do not begin with a Low run (R51: a pulse is "preceded by Low"). -/
  | noLowRun
  /-- A Low run of `CEILING + 2` or more samples is no symbol but Timeout(WaitHigh) (R60, R91 item 3). -/
  | lowRunTooLong
  /-- No High sample follows the Low run. -/
  | noHighRun
  /-- A High run of `CEILING + 2` or more samples is no symbol but Timeout(MeasureHigh) (R51, R60). -/
  | highRunTooLong
  /-- The Low sample that ends the High run (R51) is missing. -/
  | unterminated
  /-- Samples are left over after the one that ends the symbol. -/
  | trailingSamples
deriving DecidableEq, Repr

/-- The row of format S that a 3-bit state code selects (R55); all eight codes are used (R60). -/
def decodeStateCode (code : BitVec 3) : Instr :=
  match code.toNat with
  | 0 => .idle
  | 1 => .startLow
  | 2 => .startHigh
  | 3 => .awaitAck
  | 4 => .waitHigh
  | 5 => .measureHigh
  | 6 => .done
  | _ => .failed

/-- The row of format H that the input `start` selects (R59). -/
def decodeCommand (start : BitVec 1) : Instr := if start = 1#1 then .start else .nop

/-- Splits off the leading samples equal to `l`: how many there are, and the rest (a "run" of 00_scope.md 7.3). -/
def leadingRun (l : Level) : List Level → Nat × List Level
  | [] => (0, [])
  | x :: xs => if x = l then ((leadingRun l xs).1 + 1, (leadingRun l xs).2) else (0, x :: xs)

/-- Reads one wire symbol off the front of a sample stream (R51, R91): a Low run, a High run, and one Low sample
that ends it. That last sample is left in the rest, because it is also the first of the next Low run (R91 item 2). -/
def readSymbol (c : Config) (samples : List Level) : Except DecodeError (Instr × List Level) :=
  let lowRun := leadingRun .low samples
  let highRun := leadingRun .high lowRun.2
  if lowRun.1 = 0 then .error .noLowRun
  else if c.ceiling + 1 < lowRun.1 then .error .lowRunTooLong
  else if highRun.1 = 0 then .error .noHighRun
  else if c.ceiling + 1 < highRun.1 then .error .highRunTooLong
  else if highRun.2 = [] then .error .unterminated
  else if highRun.1 ≤ c.threshTicks then .ok (.sym0 lowRun.1 highRun.1, highRun.2)
  else .ok (.sym1 lowRun.1 highRun.1, highRun.2)

/-- Format W as one word: exactly one symbol with the Low sample that ends it (table rows SYM0 and SYM1). -/
def decodeWire (c : Config) (samples : List Level) : Except DecodeError Instr :=
  match readSymbol c samples with
  | .error e => .error e
  | .ok (i, rest) => if rest = [.low] then .ok i else .error .trailingSamples

/-- The decoder, total on every encoded form (R63). The configuration sets the widths of wire symbols. -/
def decode (c : Config) : OpWord → Except DecodeError Instr
  | .state code => .ok (decodeStateCode code)
  | .command start => .ok (decodeCommand start)
  | .reset rst => if rst = 1#1 then .ok .rst else .error .resetNotAsserted
  | .wire samples => decodeWire c samples

/-- The samples of one pulse (R51): `lam` Low samples, then `h` High samples. -/
def pulseSamples (lam h : Nat) : List Level := List.replicate lam .low ++ List.replicate h .high

/-- The encoder, written from the same tables (R51, R55, R59, R140). -/
def encode : Instr → OpWord
  | .idle => .state 0b000#3
  | .startLow => .state 0b001#3
  | .startHigh => .state 0b010#3
  | .awaitAck => .state 0b011#3
  | .waitHigh => .state 0b100#3
  | .measureHigh => .state 0b101#3
  | .done => .state 0b110#3
  | .failed => .state 0b111#3
  | .start => .command 1#1
  | .nop => .command 0#1
  | .rst => .reset 1#1
  | .sym0 lam h => .wire (pulseSamples lam h ++ [.low])
  | .sym1 lam h => .wire (pulseSamples lam h ++ [.low])

/-- Which wires an encoding stands on: the table's column "format", the reset input told apart from the command. -/
inductive Format where
  | state
  | command
  | reset
  | wire
deriving DecidableEq, Repr

/-- The format of an encoded form. -/
def OpWord.format : OpWord → Format
  | .state _ => .state
  | .command _ => .command
  | .reset _ => .reset
  | .wire _ => .wire

/-- The bits of an encoded form as a number; a wire symbol has no fixed bits and counts as 0. -/
def OpWord.bits : OpWord → Nat
  | .state code => code.toNat
  | .command start => start.toNat
  | .reset rst => rst.toNat
  | .wire _ => 0

/-- One row of spec/opcode_table.json. The rows of format W have no fixed bits there: `mask = 0`. -/
structure TableRow where
  mnemonic : String
  format : Format
  pattern : Nat
  mask : Nat
deriving DecidableEq, Repr

/-- The operation table (R63), in the order of spec/opcode_table.json. -/
def opcodeTable : List TableRow :=
  [⟨"IDLE", .state, 0, 7⟩, ⟨"START_LOW", .state, 1, 7⟩, ⟨"START_HIGH", .state, 2, 7⟩,
   ⟨"AWAIT_ACK", .state, 3, 7⟩, ⟨"WAIT_HIGH", .state, 4, 7⟩, ⟨"MEASURE_HIGH", .state, 5, 7⟩,
   ⟨"DONE", .state, 6, 7⟩, ⟨"FAILED", .state, 7, 7⟩] ++
  [⟨"START", .command, 1, 1⟩, ⟨"NOP", .command, 0, 1⟩, ⟨"RST", .reset, 1, 1⟩,
   ⟨"SYM0", .wire, 0, 0⟩, ⟨"SYM1", .wire, 0, 0⟩]

/-- The mnemonic of an operation, as the table spells it. -/
def Instr.mnemonic : Instr → String
  | .idle => "IDLE"
  | .startLow => "START_LOW"
  | .startHigh => "START_HIGH"
  | .awaitAck => "AWAIT_ACK"
  | .waitHigh => "WAIT_HIGH"
  | .measureHigh => "MEASURE_HIGH"
  | .done => "DONE"
  | .failed => "FAILED"
  | .start => "START"
  | .nop => "NOP"
  | .rst => "RST"
  | .sym0 _ _ => "SYM0"
  | .sym1 _ _ => "SYM1"

/-- A row admits an encoded form: the same wires, and the fixed bits agree under the mask. -/
abbrev TableRow.Admits (r : TableRow) (w : OpWord) : Prop :=
  w.format = r.format ∧ w.bits &&& r.mask = r.pattern

/-- Two rows share an encoded form: the same wires and no fixed bit that tells them apart. -/
abbrev TableRow.Overlaps (r r' : TableRow) : Prop :=
  r.format = r'.format ∧ r.pattern &&& (r.mask &&& r'.mask) = r'.pattern &&& (r.mask &&& r'.mask)

/-- The encoded form that a table word numbers. The rows of formats S and H share the numbers 0 and 1; a word of
whole bytes is read as format S, one bit alone as format H (log entry 4). -/
def tableWord (nbits w : Nat) : Option OpWord :=
  if nbits ≤ 1 then (if w < 2 then some (.command (BitVec.ofNat 1 w)) else none)
  else if w < 8 then some (.state (BitVec.ofNat 3 w))
  else none

/-- The operation the decoder reads from a table word (log entry 4). -/
def decodeTableWord (nbits w : Nat) : Option Instr :=
  match tableWord nbits w with
  | none => none
  | some word => (decode (Config.default 1) word).toOption

end Sys2Proof
end

