-- ==== Sys2Proof/Machine/Fetch.lean ====
section
/-! DEFINITION. Machine/Fetch.lean: how a step selects its operation (R63), and how an encoded form is laid down so
that the very next step runs it (log entry 4). Nothing is fetched from a store (R42): the state register and the
inputs select. -/

namespace Sys2Proof.Machine

/-- The encoded form that selects the operation of this step (R63): the reset input if it is 1, else the code of the
state register. -/
def State.opWord (s : State) : OpWord := if s.input.rst then .reset 1#1 else .state (stCode s.regs.st)

/-- The operation of this step (R63, R70). -/
def selectOperation (s : State) : Instr :=
  if s.input.rst then .rst else decodeStateCode (stCode s.regs.st)

/-- The row of format H or W that the inputs select inside the operation of this step (R63; the table's column
"selected_by"): START or NOP in a holding state, SYM0 or SYM1 at the fall of a pulse. The block does not record the
Low run before a pulse (R89), so `lam` is the caller's. -/
def selectRow (lam : Nat) (s : State) : Option Instr :=
  if s.input.rst then none
  else if s.regs.st.isHolding then some (if s.input.start then .start else .nop)
  else if s.regs.st = .measureHigh ∧ s.lineRead = .low then
    some (if s.regs.measuredDuration ≤ s.cfg.threshTicks then .sym0 lam s.regs.measuredDuration
          else .sym1 lam s.regs.measuredDuration)
  else none

/-- The input that stands for this step when a form is laid down: the one the stimulus holds, or, where it holds
none, all zeros (log entry 4). -/
def State.laidInput (s : State) : Input :=
  match s.inputs with
  | x :: _ => x
  | [] => ⟨false, false, .low⟩

/-- The stimulus with this step's input replaced. -/
def State.withInput (s : State) (x : Input) : State := { s with inputs := x :: s.inputs.tail }

/-- The lengths of the Low and the High run of a symbol. -/
def symbolRuns : Instr → Option (Nat × Nat)
  | .sym0 lam h | .sym1 lam h => some (lam, h)
  | _ => none

/-- Lays an encoded form down for the very next step (log entry 4): a state code in `st` with `rst = 0`; a command on
`start` with `rst = 0`; `rst` itself; or a wire symbol, by the registers as its fall finds them (R88) and a Low
sample. -/
def State.withWord (s : State) (w : OpWord) : State :=
  match w with
  | .state code =>
    { s.withInput { s.laidInput with rst := false } with regs := { s.regs with st := stOfCode code } }
  | .command b => s.withInput { s.laidInput with rst := false, start := b == 1#1 }
  | .reset b => s.withInput { s.laidInput with rst := b == 1#1 }
  | .wire samples =>
    match decodeWire s.cfg samples with
    | .error _ => s
    | .ok i =>
      match symbolRuns i with
      | none => s
      | some (_, h) =>
        { s.withInput { s.laidInput with rst := false, line := .low } with
          regs := { s.regs with st := .measureHigh, cnt := h - 1, dur := h - 1 } }

end Sys2Proof.Machine
end

