-- ==== Sys2Proof/Machine/Step.lean ====
section
/-! DEFINITION. Machine/Step.lean: one step of the machine (R70), and the laying down of a table word. -/

namespace Sys2Proof.Machine

/-- One step (R70): the selected operation, then the tick. A configuration that breaks R5 is refused; on every other
state the step is total. -/
def step (s : State) : Host.Outcome State Fault Refusal :=
  if s.cfg.Wf then afterTick (exec (selectOperation s) s)
  else .refused .illFormedConfiguration

/-- The state with a table word laid down for the very next step (log entry 4). -/
def State.withFetchWord (s : State) (nbits w : Nat) : State :=
  match tableWord nbits w with
  | none => s
  | some word => s.withWord word

end Sys2Proof.Machine
end

