-- ==== Sys2Proof/Machine/Timing.lean ====
section
/-! DEFINITION. Machine/Timing.lean: the step counts the spec derives (R76, R91, R149) and the reading of ticks as
physical time (R6, R150). No operation uses any of them. -/

namespace Sys2Proof.Machine

/-- The duration of `n` ticks in microseconds, an exact rational (R6). -/
def ticksToMicros (c : Config) (n : Nat) : ℚ := (n : ℚ) / (c.ticksPerUs : ℚ)

/-- The longest stay in a polling state (R85, R149). -/
def longestWait (c : Config) : Nat := c.ceiling + 1

/-- The most steps an exchange can take, the acceptance step included (R76). -/
def longestExchange (c : Config) : Nat := 1 + c.tLowTicks + c.tHighTicks + 81 * (c.ceiling + 1)

/-- The fewest steps of an exchange that ends in DONE (R76). -/
def shortestReading (c : Config) : Nat := c.tLowTicks + c.tHighTicks + 82

/-- The fewest steps of an exchange that ends in FAILED (R76). -/
def shortestFailure (c : Config) : Nat := 1 + c.tLowTicks + c.tHighTicks + c.ceiling + 1

/-- A pulse as the sampler sees it (R91 item 2): the length of its Low run and of its High run. -/
abbrev Pulse := Nat × Nat

/-- A pulse that neither wait of its bit times out on (R91 items 3 and 4). -/
abbrev Pulse.Passes (c : Config) (p : Pulse) : Prop :=
  1 ≤ p.1 ∧ p.1 ≤ c.ceiling + 1 ∧ 1 ≤ p.2 ∧ p.2 ≤ c.ceiling + 1

/-- The samples of successive pulses, without the Low sample that ends the last one (R91 item 2). -/
def waveform : List Pulse → List Level
  | [] => []
  | p :: ps => List.replicate p.1 .low ++ List.replicate p.2 .high ++ waveform ps

/-- The number of samples of successive pulses: the sum of R91's step count. -/
def waveformTicks : List Pulse → Nat
  | [] => 0
  | p :: ps => p.1 + p.2 + waveformTicks ps

end Sys2Proof.Machine
end

