-- ==== Sys2Proof/Safety.lean ====
section
/-! DEFINITION. Safety.lean: the invariants of the block (R24, R14 to R16) and the duties of its host (R142 to R146),
the terms in which statements say what a proper run is. -/

namespace Sys2Proof.Machine

/-- The eight invariants of R24, item by item. -/
structure Inv (c : Config) (σ : Regs) : Prop where
  /-- Item 1. -/
  indexBound : σ.i.val ≤ 39
  /-- Item 2. -/
  countersBounded : σ.cnt ≤ c.ceiling ∧ σ.dur ≤ c.ceiling
  /-- Item 3. -/
  timerBounded : (σ.st = .startLow → σ.tmr < c.tLowTicks) ∧ (σ.st = .startHigh → σ.tmr < c.tHighTicks) ∧
    (σ.st.isDriving = false → σ.tmr = 0)
  /-- Item 4. -/
  durationTracksCount : (σ.st = .measureHigh → σ.dur = σ.cnt) ∧
    (σ.st = .failed → σ.fphase = .measureHigh → σ.dur = c.ceiling ∧ σ.cnt = c.ceiling) ∧
    (σ.st ≠ .measureHigh → ¬(σ.st = .failed ∧ σ.fphase = .measureHigh) → σ.dur = 0)
  /-- Item 5: only the bits sampled so far are in the frame. -/
  frameBounded : σ.frame.toNat < 2 ^ σ.bitsHeld
  /-- Item 6. -/
  phaseOnlyInFailed : σ.fphase ≠ .none ↔ σ.st = .failed
  /-- Item 7. -/
  doneIsComplete : σ.st = .done → σ.i = 39 ∧ σ.tmr = 0 ∧ σ.cnt = 0 ∧ σ.dur = 0
  /-- Item 8. -/
  freshBeforeFirstBit : σ.st = .startLow ∨ σ.st = .startHigh ∨ σ.st = .awaitAck → σ.i = 0 ∧ σ.frame = 0#40

/-- What R15 says of `cnt` outside the waits: 0 before the first poll and after the last APPEND, and `CEILING` after
a timeout. -/
structure CountLaw (c : Config) (σ : Regs) : Prop where
  zeroOutsideWaits : σ.st = .idle ∨ σ.st = .startLow ∨ σ.st = .startHigh ∨ σ.st = .done → σ.cnt = 0
  ceilingAfterTimeout : σ.st = .failed → σ.cnt = c.ceiling

/-- A state that a proper run is in: a legal configuration (R5) and the invariants of R24. -/
structure SafeState (s : State) : Prop where
  legalConfig : s.cfg.Wf
  invariants : Inv s.cfg s.regs

/-- The successive registers of a run, each with the input of its step (R70). -/
def traceBlock (c : Config) : Regs → List Input → List (Regs × Input)
  | _, [] => []
  | σ, x :: xs => (σ, x) :: traceBlock c (blockStep c σ x) xs

/-- The host waits at least the minimum interval after the last exchange or reset before each START (R142 item 4,
R143). `since` is the number of steps since then. -/
def keepsInterval (c : Config) : Nat → List (Regs × Input) → Bool
  | _, [] => true
  | since, (σ, x) :: rest =>
    if x.rst || σ.busy then keepsInterval c 0 rest
    else (!x.start || decide (c.minIntervalTicks ≤ since)) && keepsInterval c (since + 1) rest

/-- The host gives START for one step and takes it away before the exchange ends (R142 item 5, R144). `wasBusy` says
whether the step before was one of a busy state. -/
def pulsesStart : Bool → List (Regs × Input) → Bool
  | _, [] => true
  | wasBusy, (σ, x) :: rest => (!x.start || (!σ.busy && !wasBusy)) && pulsesStart σ.busy rest

/-- The host loses no exchange: it never resets the block while `busy = 1`. This is R146 without its "unless". -/
def neverInterrupts : List (Regs × Input) → Bool
  | [] => true
  | (σ, x) :: rest => (!x.rst || !σ.busy) && neverInterrupts rest

/-- R146 whole: a host that resets the block while `busy = 1` accepts the loss of the exchange and waits the minimum
interval before it gives the next START (R141). `owed` is how many steps of that wait are still to come; a START is
one that a holding state would accept (R74). -/
def waitsOutInterruptions (c : Config) : Nat → List (Regs × Input) → Bool
  | _, [] => true
  | owed, (σ, x) :: rest =>
    if x.rst then waitsOutInterruptions c (if σ.busy then c.minIntervalTicks else owed - 1) rest
    else (!x.start || σ.busy || decide (owed = 0)) && waitsOutInterruptions c (owed - 1) rest

/-- The duties of the host that the block's ports show (R142 to R146), over a run that begins with a reset.
Exclusive use of the line (R145) and the regularity of the tick (R147) are not seen at the ports (log entry 10). -/
def hostKeepsDuties (c : Config) : List Input → Bool
  | [] => true
  | x :: xs =>
    x.rst && keepsInterval c 0 (traceBlock c Regs.reset xs) &&
      pulsesStart false (traceBlock c Regs.reset xs) &&
      waitsOutInterruptions c 0 (traceBlock c Regs.reset xs)

end Sys2Proof.Machine
end

