-- ==== Sys2Proof/Certificates/Slice0/Obligations.lean ====
section
/-! DEFINITION. Certificates/Slice0/Obligations.lean: the statements for the provers. `s`, `t` are states of the
machine, `σ` registers, `c` a configuration; each docstring names the rules a statement formalises. A rule with the
mark † is one that the spec itself derives from others ("[derived: …]" stands at its end). -/

open Sys2Proof Sys2Proof.Machine

/-! ## Reset, dispatch and selection -/

/-- R140. In any step with `rst = 1` the next state is the reset state, whatever the state and the other inputs are;
the first step with `rst = 0` after it runs IDLE. -/
def Obligations.ResetFromEveryState : Prop :=
  (∀ s : State, exec .rst s = .next (s.setRegs ⟨.idle, 0, 0#40, 0, 0, 0, .none⟩)) ∧
  (∀ s : State, s.cfg.Wf → s.input.rst = true →
    step s = .next (s.setRegs ⟨.idle, 0, 0#40, 0, 0, 0, .none⟩).advance) ∧
  (∀ s : State, s.regs = ⟨.idle, 0, 0#40, 0, 0, 0, .none⟩ → s.input.rst = false → selectOperation s = .idle)

/-- R141. A reset in the middle of an exchange ends it at once with no result: the next state is IDLE, nothing of the
frame survives, and the line is released from the next step. -/
def Obligations.ResetEndsAnExchange : Prop :=
  ∀ s : State, s.cfg.Wf → s.regs.busy = true → s.input.rst = true →
    ∃ t, step s = .next t ∧ t.regs.st = .idle ∧ t.regs.frame = 0#40 ∧ t.regs.res = .none ∧
      t.regs.result = .none ∧ t.regs.lineDrive = none

/-- R23. The reset values of the registers, after a step with `rst = 1` and in the state that runs start from, and of
every output; in IDLE no output depends on another register. -/
def Obligations.ResetValuesAndOutputs : Prop :=
  State.reset.regs = ⟨.idle, 0, 0#40, 0, 0, 0, .none⟩ ∧
  (∀ s : State, s.cfg.Wf → s.input.rst = true →
    ∃ t, step s = .next t ∧ t.regs = ⟨.idle, 0, 0#40, 0, 0, 0, .none⟩) ∧
  (∀ σ : Regs, σ.st = .idle →
    σ.outputs = ⟨false, .high, 0x0000#16, 0#12, 0#12⟩ ∧
    σ.busy = false ∧ σ.done = false ∧ σ.res = .none)

/-- R70. One step of the machine is the dispatch of R70, case by case, and a tick: total on every state and input of
a legal configuration. -/
def Obligations.StepIsTheDispatch : Prop :=
  ∀ s : State, s.cfg.Wf →
    step s = .next
      (s.setRegs
        (if s.input.rst then ⟨.idle, 0, 0#40, 0, 0, 0, .none⟩
         else match s.regs.st with
          | .idle | .done | .failed => if s.input.start then startExchange s.regs else s.regs
          | .startLow => startLow s.cfg s.regs
          | .startHigh => startHigh s.cfg s.regs
          | .awaitAck => awaitAck s.cfg s.regs s.input.line
          | .waitHigh => waitHigh s.cfg s.regs s.input.line
          | .measureHigh => measureHigh s.cfg s.regs s.input.line)).advance

/-- R5†. A configuration that breaks a constraint is refused, and nothing else is; at the document's literals the
constraints are `1 <= P <= 20`; and a bit of value 1 can be read at all just when `CEILING >= THRESH_TICKS`. -/
def Obligations.IllFormedConfigurationIsRefused : Prop :=
  (∀ s : State, (step s = .refused .illFormedConfiguration ↔
    ¬(1 ≤ s.cfg.ticksPerUs ∧ 1 ≤ s.cfg.tLowTicks ∧ 1 ≤ s.cfg.tHighTicks ∧
      s.cfg.tHighTicks ≤ s.cfg.tLowTicks ∧ s.cfg.threshTicks ≤ s.cfg.ceiling))) ∧
  (∀ s : State, s.cfg.Wf → ∃ t, step s = .next t) ∧
  (∀ p, (Config.default p).Wf ↔ 1 ≤ p ∧ p ≤ 20) ∧
  (∀ c : Config, (∃ d, 1 ≤ d ∧ d ≤ c.ceiling + 1 ∧ classify c d = true) ↔ c.threshTicks ≤ c.ceiling)

/-- R63†, R70. A step runs the operation that the decoder reads from the selecting wires; and an operation laid down for
the next step (the model's `withWord`, log entry 4), whichever row of the table it is, is what the next step runs. -/
def Obligations.StepRunsTheDecodedOperation : Prop :=
  (∀ (s : State) (i : Instr), s.cfg.Wf → decode s.cfg s.opWord = .ok i → step s = afterTick (exec i s)) ∧
  (∀ s : State, ∃ i, decode s.cfg s.opWord = .ok i) ∧
  (∀ (s : State) (i : Instr), s.cfg.Wf → i.Wf s.cfg →
    step (s.withWord (encode i)) = afterTick (exec i (s.withWord (encode i))))

/-- R63†. Where the inputs select a row of format H or W inside the operation of the step (START or NOP in a holding
state, SYM0 or SYM1 at a fall), that row and the state operation have the same effect. -/
def Obligations.SelectedRowAgreesWithStateOperation : Prop :=
  ∀ (s : State) (lam : Nat) (i : Instr), selectRow lam s = some i → exec (selectOperation s) s = exec i s

/-! ## Encodings -/

/-- R51, R55, R59, R140. Words written out from the tables, and what they stand for; the two symbols at the default
threshold of 50 ticks, on either side of it. -/
def Obligations.WrittenOutWordsDecode : Prop :=
  decode (Config.default 1) (.state 0b000#3) = .ok .idle ∧
  decode (Config.default 1) (.state 0b011#3) = .ok .awaitAck ∧
  decode (Config.default 1) (.state 0b101#3) = .ok .measureHigh ∧
  decode (Config.default 1) (.state 0b111#3) = .ok .failed ∧
  decode (Config.default 1) (.command 1#1) = .ok .start ∧
  decode (Config.default 1) (.command 0#1) = .ok .nop ∧
  decode (Config.default 1) (.reset 1#1) = .ok .rst ∧
  decode (Config.default 1) (.wire ([.low, .low] ++ List.replicate 50 .high ++ [.low])) = .ok (.sym0 2 50) ∧
  decode (Config.default 1) (.wire ([.low, .low] ++ List.replicate 51 .high ++ [.low])) = .ok (.sym1 2 51)

/-- R51, R55, R59. Decoding the encoding of a well-formed operation gives it back: all thirteen rows, every run
length a symbol may have. -/
def Obligations.DecodeOfEncode : Prop :=
  ∀ (c : Config) (i : Instr), c.Wf → i.Wf c → decode c (encode i) = .ok i

/-- R51, R60. Whatever decodes is the encoding of a well-formed operation: no two forms mean the same, and no run
too long for a symbol is read as one. -/
def Obligations.EncodeOfDecode : Prop :=
  ∀ (c : Config) (w : OpWord) (i : Instr), decode c w = .ok i → encode i = w ∧ i.Wf c

/-- R60. Of the rows with fixed bits no two on the same wires overlap, and every state code has exactly one row. The
table puts START, NOP and RST in one format H and numbers START and RST alike; that the reset input is a format of its
own is the model's choice (log entry 4). SYM0 and SYM1 have no fixed bits: their operand ranges tell them apart. -/
def Obligations.TableRowsDoNotOverlap : Prop :=
  (opcodeTable.filter fun r => r.mask != 0).Pairwise (fun r r' => ¬ r.Overlaps r') ∧
  (∀ code : BitVec 3, ((opcodeTable.filter fun r => decide (r.Admits (.state code))).length = 1))

/-! ## The operations: their whole effect, which is also their frame -/

/-- R71, R105, R106. The three holding operations look at `start` alone: START clears every register and enters
START_LOW, and otherwise nothing changes. -/
def Obligations.HoldingOperations : Prop :=
  ∀ (i : Instr) (s : State), i = .idle ∨ i = .done ∨ i = .failed →
    exec i s = .next
      (if s.input.start then s.setRegs ⟨.startLow, 0, 0#40, 0, 0, 0, .none⟩ else s)

/-- R72. START in a holding state: every register is overwritten, the ports show the new exchange, and the line is
driven Low from the next step and not before. -/
def Obligations.StartBeginsAnExchange : Prop :=
  ∀ s : State, s.regs.st = .idle ∨ s.regs.st = .done ∨ s.regs.st = .failed →
    s.regs.lineDrive = none ∧
    ∃ t, exec .start s = .next t ∧ t = s.setRegs ⟨.startLow, 0, 0#40, 0, 0, 0, .none⟩ ∧
      t.regs.outputs = ⟨true, .low, 0x8800#16, 0#12, 0#12⟩ ∧
      t.regs.busy = true ∧ t.regs.done = false ∧ t.regs.res = .none

/-- R73. NOP in a holding state changes no register. -/
def Obligations.NopHoldsTheState : Prop :=
  ∀ s : State, s.regs.st = .idle ∨ s.regs.st = .done ∨ s.regs.st = .failed → exec .nop s = .next s

/-- R74. In a busy state a START is lost: the step is the one that `start = 0` gives, the exchange goes on, and it is
neither restarted nor given up. -/
def Obligations.StartWhileBusyIsIgnored : Prop :=
  (∀ (s : State) (x : Input) (xs : List Input), s.regs.busy = true →
    step { s with inputs := { x with start := true } :: xs } =
      step { s with inputs := { x with start := false } :: xs }) ∧
  (∀ s t : State, s.regs.busy = true → s.input.rst = false → step s = .next t →
    t.regs.st ≠ .idle ∧ (t.regs.st = .startLow → s.regs.st = .startLow ∧ t.regs.tmr = s.regs.tmr + 1))

/-- The model's choice (log entry 6), fitted to R74: executed in a busy state, the rows START and NOP run the operation
of that state, which goes on as if there were no command. -/
def Obligations.CommandRowsWhileBusy : Prop :=
  ∀ s : State, s.regs.busy = true →
    exec .start s = exec .nop s ∧ (s.input.rst = false → exec .start s = exec (selectOperation s) s)

/-- R80. START_LOW counts in `tmr` and leaves for START_HIGH at its last tick; the line is driven Low meanwhile. -/
def Obligations.StartLowOperation : Prop :=
  ∀ s : State,
    exec .startLow s = .next (s.setRegs
      (if s.regs.tmr + 1 = s.cfg.tLowUs * s.cfg.ticksPerUs then { s.regs with st := .startHigh, tmr := 0 }
       else { s.regs with tmr := s.regs.tmr + 1 })) ∧
    (s.regs.st = .startLow → s.regs.lineDrive = some .low ∧ s.regs.busy = true ∧
      ∀ t, exec .startLow s = .next t → t.regs.busy = true)

/-- R81. START_HIGH counts in `tmr` and leaves for AWAIT_ACK at its last tick, with `cnt` cleared; the line is driven
High meanwhile and released after. -/
def Obligations.StartHighOperation : Prop :=
  ∀ s : State,
    (∃ t, exec .startHigh s = .next t ∧
      t = s.setRegs
        (if s.regs.tmr + 1 = s.cfg.tHighUs * s.cfg.ticksPerUs then
          { s.regs with st := .awaitAck, tmr := 0, cnt := 0 }
         else { s.regs with tmr := s.regs.tmr + 1 }) ∧
      (s.regs.tmr + 1 = s.cfg.tHighUs * s.cfg.ticksPerUs → t.regs.lineDrive = none)) ∧
    (s.regs.st = .startHigh → s.regs.lineDrive = some .high ∧ s.regs.busy = true ∧
      ∀ t, exec .startHigh s = .next t → t.regs.busy = true)

/-- R86. AWAIT_ACK: a High poll counts or, past the ceiling, fails; a Low poll goes on to WAIT_HIGH. -/
def Obligations.AwaitAckOperation : Prop :=
  ∀ s : State,
    (s.input.line = .high → s.regs.cnt + 1 > s.cfg.ceiling →
      exec .awaitAck s = .next (s.setRegs { s.regs with st := .failed, fphase := .awaitAck })) ∧
    (s.input.line = .high → s.regs.cnt + 1 ≤ s.cfg.ceiling →
      exec .awaitAck s = .next (s.setRegs { s.regs with cnt := s.regs.cnt + 1 })) ∧
    (s.input.line = .low →
      exec .awaitAck s = .next (s.setRegs { s.regs with st := .waitHigh, cnt := 0 })) ∧
    (s.regs.st = .awaitAck → s.regs.lineDrive = none ∧ s.regs.busy = true ∧
      ∀ t, exec .awaitAck s = .next t →
        (t.regs.st = .failed → t.regs.busy = false ∧ t.regs.done = true ∧ t.regs.res = .timeout) ∧
        (t.regs.st ≠ .failed → t.regs.busy = true))

/-- R87. WAIT_HIGH: a Low poll counts or, past the ceiling, fails with the index left in `i`; a High poll is tick 0
of the pulse. -/
def Obligations.WaitHighOperation : Prop :=
  ∀ s : State,
    (s.input.line = .low → s.regs.cnt + 1 > s.cfg.ceiling →
      exec .waitHigh s = .next (s.setRegs { s.regs with st := .failed, fphase := .waitHigh })) ∧
    (s.input.line = .low → s.regs.cnt + 1 ≤ s.cfg.ceiling →
      exec .waitHigh s = .next (s.setRegs { s.regs with cnt := s.regs.cnt + 1 })) ∧
    (s.input.line = .high →
      exec .waitHigh s = .next (s.setRegs { s.regs with st := .measureHigh, cnt := 0, dur := 0 })) ∧
    (s.regs.st = .waitHigh → s.regs.lineDrive = none ∧ s.regs.busy = true ∧
      ∀ t, exec .waitHigh s = .next t →
        (t.regs.st = .failed → t.regs.busy = false ∧ t.regs.done = true ∧ t.regs.res = .timeout) ∧
        (t.regs.st ≠ .failed → t.regs.busy = true))

/-- R88. MEASURE_HIGH: a High poll counts in `cnt` and `dur` or, past the ceiling, fails; a Low poll classifies
`dur + 1`, appends the bit and goes on to the next bit or, after bit 39, to DONE with `i` left at 39. -/
def Obligations.MeasureHighOperation : Prop :=
  ∀ s : State,
    (s.input.line = .high → s.regs.cnt + 1 > s.cfg.ceiling →
      exec .measureHigh s = .next (s.setRegs { s.regs with st := .failed, fphase := .measureHigh })) ∧
    (s.input.line = .high → s.regs.cnt + 1 ≤ s.cfg.ceiling →
      exec .measureHigh s =
        .next (s.setRegs { s.regs with cnt := s.regs.cnt + 1, dur := s.regs.dur + 1 })) ∧
    (s.input.line = .low → s.regs.i.val < 39 →
      ∃ t, exec .measureHigh s = .next t ∧ t.regs.i.val = s.regs.i.val + 1 ∧
        t = s.setRegs { s.regs with
          st := .waitHigh, i := t.regs.i, cnt := 0, dur := 0
          frame := append s.regs.frame (decide (s.cfg.threshUs * s.cfg.ticksPerUs < s.regs.dur + 1)) }) ∧
    (s.input.line = .low → s.regs.i.val = 39 →
      exec .measureHigh s = .next (s.setRegs { s.regs with
        st := .done, cnt := 0, dur := 0
        frame := append s.regs.frame (decide (s.cfg.threshUs * s.cfg.ticksPerUs < s.regs.dur + 1)) })) ∧
    (s.regs.st = .measureHigh → s.regs.lineDrive = none ∧ s.regs.busy = true ∧
      ∀ t, exec .measureHigh s = .next t →
        (t.regs.st = .failed → t.regs.busy = false ∧ t.regs.done = true ∧ t.regs.res = .timeout) ∧
        (t.regs.st = .done → t.regs.busy = false ∧ t.regs.done = true ∧
          t.regs.res = if valid t.regs.frame then .reading else .checksumMismatch) ∧
        (t.regs.st ≠ .failed → t.regs.st ≠ .done → t.regs.busy = true))

/-- R51, R88, and the model's reading of the rows SYM0 and SYM1 (log entry 7). The fall that ends a wire symbol
appends the symbol's bit, 0 for SYM0 and 1 for SYM1, clears the counters and advances; everything else keeps its
value. -/
def Obligations.SymbolsAppendTheirBit : Prop :=
  ∀ (s : State) (lam h : Nat),
    (s.regs.i.val < 39 → ∃ t u, exec (.sym0 lam h) s = .next t ∧ exec (.sym1 lam h) s = .next u ∧
      t.regs.i.val = s.regs.i.val + 1 ∧ u.regs.i = t.regs.i ∧
      t = s.setRegs { s.regs with
        st := .waitHigh, i := t.regs.i, frame := append s.regs.frame false, cnt := 0, dur := 0 } ∧
      u = s.setRegs { s.regs with
        st := .waitHigh, i := t.regs.i, frame := append s.regs.frame true, cnt := 0, dur := 0 }) ∧
    (s.regs.i.val = 39 →
      exec (.sym0 lam h) s = .next (s.setRegs { s.regs with
        st := .done, frame := append s.regs.frame false, cnt := 0, dur := 0 }) ∧
      exec (.sym1 lam h) s = .next (s.setRegs { s.regs with
        st := .done, frame := append s.regs.frame true, cnt := 0, dur := 0 }))

/-- R3. Whatever the operation, it writes registers only; a step uses up one input and one tick, and the inputs
after it are those that stood before, one place nearer (the stimulus and the tick are the model's own fields, log
entries 2 and 3). -/
def Obligations.OnlyRegistersAreWritten : Prop :=
  (∀ (i : Instr) (s : State), ∃ r, exec i s = .next (s.setRegs r)) ∧
  (∀ s t : State, step s = .next t →
    t.cfg = s.cfg ∧ t.tick = s.tick + 1 ∧ t.inputs = s.inputs.tail ∧ ∀ k, t.inputAt k = s.inputAt (k + 1))

/-! ## What single steps can do -/

/-- R75 (its order of states). With `rst = 0` a step moves along the edges of the state graph and no others. -/
def Obligations.StateGraph : Prop :=
  ∀ s t : State, s.input.rst = false → step s = .next t →
    match s.regs.st with
    | .idle => t.regs.st = .idle ∨ t.regs.st = .startLow
    | .startLow => t.regs.st = .startLow ∨ t.regs.st = .startHigh
    | .startHigh => t.regs.st = .startHigh ∨ t.regs.st = .awaitAck
    | .awaitAck => t.regs.st = .awaitAck ∨ t.regs.st = .waitHigh ∨ t.regs.st = .failed
    | .waitHigh => t.regs.st = .waitHigh ∨ t.regs.st = .measureHigh ∨ t.regs.st = .failed
    | .measureHigh => t.regs.st = .measureHigh ∨ t.regs.st = .failed ∨
        (t.regs.st = .waitHigh ∧ s.regs.i.val < 39) ∨ (t.regs.st = .done ∧ s.regs.i.val = 39)
    | .done => t.regs.st = .done ∨ t.regs.st = .startLow
    | .failed => t.regs.st = .failed ∨ t.regs.st = .startLow

/-- R123. FAILED is entered only by a timeout: from a polling state, on a poll that still finds the old
level with `cnt + 1 > CEILING`; `fphase` takes the phase, every other register keeps its value, and the line is
released before and after. -/
def Obligations.FailureEntryIsPrecise : Prop :=
  ∀ s t : State, step s = .next t → t.regs.st = .failed → s.regs.st ≠ .failed →
    s.regs.cnt + 1 > s.cfg.ceiling ∧ s.regs.lineDrive = none ∧ t.regs.lineDrive = none ∧
    t.regs.busy = false ∧ t.regs.done = true ∧ t.regs.res = .timeout ∧
    ((s.regs.st = .awaitAck ∧ s.input.line = .high ∧
        t.regs = { s.regs with st := .failed, fphase := .awaitAck }) ∨
     (s.regs.st = .waitHigh ∧ s.input.line = .low ∧
        t.regs = { s.regs with st := .failed, fphase := .waitHigh }) ∨
     (s.regs.st = .measureHigh ∧ s.input.line = .high ∧
        t.regs = { s.regs with st := .failed, fphase := .measureHigh }))

/-- R36. DONE is entered only by the APPEND of bit 39. -/
def Obligations.DoneNeedsTheFortiethBit : Prop :=
  ∀ s t : State, step s = .next t → t.regs.st = .done → s.regs.st ≠ .done →
    s.regs.st = .measureHigh ∧ s.regs.i = 39 ∧ s.input.line = .low ∧ t.regs.i = 39 ∧
    t.regs.frame = append s.regs.frame (classify s.cfg (s.regs.dur + 1))

/-- R90. The frame is written by APPEND at a fall, cleared by START and by reset, and by nothing else. -/
def Obligations.FrameIsWrittenOnlyByAppend : Prop :=
  ∀ s t : State, step s = .next t → t.regs.frame ≠ s.regs.frame →
    (t.regs.frame = 0#40 ∧ (s.input.rst = true ∨ (s.regs.busy = false ∧ s.input.start = true))) ∨
    (s.input.rst = false ∧ s.regs.st = .measureHigh ∧ s.input.line = .low ∧
      t.regs.frame = append s.regs.frame (classify s.cfg (s.regs.dur + 1)))

/-- R12†. The index is cleared by START and by reset, raised by one when a bit other than the last has been appended,
and written by nothing else; it never wraps. -/
def Obligations.IndexNeverWraps : Prop :=
  ∀ s t : State, step s = .next t → t.regs.i ≠ s.regs.i →
    (t.regs.i = 0 ∧ (s.input.rst = true ∨ (s.regs.busy = false ∧ s.input.start = true))) ∨
    (t.regs.i.val = s.regs.i.val + 1 ∧ s.input.rst = false ∧ s.regs.st = .measureHigh ∧ s.input.line = .low)

/-- R32. Outside the polling states the line is not read: the step does not depend on it. -/
def Obligations.LineIsReadOnlyWhenPolling : Prop :=
  ∀ (s : State) (x : Input) (xs : List Input) (level : Level),
    s.regs.st ≠ .awaitAck → s.regs.st ≠ .waitHigh → s.regs.st ≠ .measureHigh →
    step { s with inputs := { x with line := level } :: xs } = step { s with inputs := x :: xs }

/-- R27†. A START wipes out the past: from any two holding states the exchange that begins is the same, given the same
configuration and the same inputs. -/
def Obligations.EarlierExchangesHaveNoEffect : Prop :=
  ∀ (s : State) (r : Regs), s.regs.busy = false → r.busy = false → s.input.start = true →
    step (s.setRegs r) = step s

/-! ## Flags, outputs and the result -/

/-- R19. The flags, and how they exclude each other. -/
def Obligations.FlagsOfTheState : Prop :=
  ∀ σ : Regs,
    (σ.busy = true ↔ σ.st ∈ [.startLow, .startHigh, .awaitAck, .waitHigh, .measureHigh]) ∧
    (σ.done = true ↔ σ.st ∈ [.done, .failed]) ∧
    (σ.res = .none ↔ σ.done = false) ∧ (σ.res = .timeout ↔ σ.st = .failed) ∧
    (σ.res = .reading ↔ σ.st = .done ∧ valid σ.frame = true) ∧
    (σ.res = .checksumMismatch ↔ σ.st = .done ∧ valid σ.frame = false) ∧
    ¬(σ.busy = true ∧ σ.done = true) ∧ (σ.busy = false ∧ σ.done = false ↔ σ.st = .idle)

/-- R20. The fields of STATUS, each at its bits. -/
def Obligations.StatusFields : Prop :=
  ∀ σ : Regs,
    σ.status.extractLsb' 15 1 = BitVec.ofBool σ.busy ∧
    σ.status.extractLsb' 14 1 = BitVec.ofBool σ.done ∧
    σ.status.extractLsb' 11 3 = stCode σ.st ∧
    σ.status.extractLsb' 9 2 = resCode σ.res ∧
    (σ.st = .failed → σ.status.extractLsb' 7 2 = phaseCode σ.fphase) ∧
    (σ.st ≠ .failed → σ.status.extractLsb' 7 2 = 0#2) ∧
    (σ.st = .failed ∧ (σ.fphase = .waitHigh ∨ σ.fphase = .measureHigh) →
      σ.status.extractLsb' 6 1 = 1#1 ∧ (σ.status.extractLsb' 0 6).toNat = σ.i.val) ∧
    (¬(σ.st = .failed ∧ (σ.fphase = .waitHigh ∨ σ.fphase = .measureHigh)) →
      σ.status.extractLsb' 6 1 = 0#1 ∧ σ.status.extractLsb' 0 6 = 0#6)

/-- R58†. STATUS takes exactly the 89 values of the table over the states that meet the invariants. -/
def Obligations.StatusTakesTheListedValues : Prop :=
  ∀ c : Config, c.Wf →
    let values : List (BitVec 16) :=
      [0x0000#16, 0x8800#16, 0x9000#16, 0x9800#16, 0xA000#16, 0xA800#16, 0x7200#16, 0x7600#16, 0x7C80#16] ++
        (List.range 40).map (fun k => 0x7D40#16 + BitVec.ofNat 16 k) ++
        (List.range 40).map (fun k => 0x7DC0#16 + BitVec.ofNat 16 k)
    values.length = 89 ∧ values.Nodup ∧ ∀ v, v ∈ values ↔ ∃ σ, Inv c σ ∧ σ.status = v

/-- R18. The two line outputs, and what they amount to: the line is driven Low in START_LOW, High in START_HIGH and in
no other state. -/
def Obligations.LineIsDrivenOnlyInTheStartSequence : Prop :=
  ∀ σ : Regs, (σ.lineOe = true ↔ σ.st = .startLow ∨ σ.st = .startHigh) ∧ (σ.lineOut = .low ↔ σ.st = .startLow) ∧
    (σ.lineDrive = some .low ↔ σ.st = .startLow) ∧ (σ.lineDrive = some .high ↔ σ.st = .startHigh)

/-- R107. The cases of the result view, in every state that meets the invariants; and in every state the ports carry
exactly the result and no more: two states have the same result just when the tag, the phase, the index fields and the
two values agree. R107 gives FAILED with `fphase = NONE` no value; for such states the second clause rests on the
model's reading (log entry 8). -/
def Obligations.ResultViewCases : Prop :=
  (∀ (c : Config) (σ : Regs), Inv c σ →
    (σ.st ≠ .done → σ.st ≠ .failed → σ.result = .none) ∧
    (σ.st = .done → valid σ.frame = true → σ.result = .reading (t10 σ.frame) (h10 σ.frame)) ∧
    (σ.st = .done → valid σ.frame = false → σ.result = .failure .checksumMismatch) ∧
    (σ.st = .failed →
      (σ.fphase = .awaitAck ∧ σ.result = .failure (.timeout .awaitAck none)) ∨
      (σ.fphase = .waitHigh ∧ σ.result = .failure (.timeout .waitHigh (some σ.i))) ∨
      (σ.fphase = .measureHigh ∧ σ.result = .failure (.timeout .measureHigh (some σ.i))))) ∧
  (∀ σ τ : Regs, σ.result = τ.result ↔
    (σ.res = τ.res ∧ σ.phaseField = τ.phaseField ∧ σ.idxValid = τ.idxValid ∧ σ.idxField = τ.idxField ∧
      σ.tempX10 = τ.tempX10 ∧ σ.humX10 = τ.humX10))

/-- R108. No partial data: without a Reading both values are 0; the counters are never seen, and the frame is seen
only through the values of a valid frame in DONE. -/
def Obligations.NoPartialDataAtThePorts : Prop :=
  (∀ σ : Regs, σ.res ≠ .reading → σ.tempX10 = 0#12 ∧ σ.humX10 = 0#12) ∧
  (∀ σ τ : Regs, σ.st = τ.st → σ.i = τ.i → σ.fphase = τ.fphase →
    (σ.st = .done → valid σ.frame = valid τ.frame ∧ (valid σ.frame = true → σ.frame = τ.frame)) →
    σ.outputs = τ.outputs)

/-- R110†. From DONE or FAILED (or IDLE), as long as neither START nor reset is given, the registers and so all outputs
stay as they are. -/
def Obligations.ResultIsStable : Prop :=
  ∀ (s : State) (n : Nat), s.cfg.Wf → s.regs.busy = false →
    (∀ k, k < n → (s.inputAt k).rst = false ∧ (s.inputAt k).start = false) →
    ∃ t, Sys2Proof.core.run n s = .next t ∧ t.regs = s.regs ∧ t.regs.outputs = s.regs.outputs

/-! ## Pure functions -/

/-- R89. CLASSIFY compares the exact duration in microseconds with the threshold, strictly: exactly the threshold
is a 0. -/
def Obligations.ClassifyIsTheExactThreshold : Prop :=
  ∀ (c : Config) (d : Nat), 1 ≤ c.ticksPerUs →
    (classify c d = true ↔ (c.threshUs : ℚ) < ticksToMicros c d) ∧
    (classify c d = false ↔ ticksToMicros c d ≤ (c.threshUs : ℚ)) ∧
    classify c (c.threshUs * c.ticksPerUs) = false ∧ classify c (c.threshUs * c.ticksPerUs + 1) = true

/-- R90. APPEND doubles the frame and adds the bit, modulo `2^40`: the new bit enters at bit 0 and every other moves
one place up. -/
def Obligations.AppendShiftsTheBitIn : Prop :=
  ∀ (F : Frame) (b : Bool),
    (append F b).toNat = (2 * F.toNat + b.toNat) % 2 ^ 40 ∧
    (append F b).getLsbD 0 = b ∧ ∀ k, k < 39 → (append F b).getLsbD (k + 1) = F.getLsbD k

/-- R35, R95. The bytes are the frame cut in five, most significant bit first. -/
def Obligations.BytesAreBigEndian : Prop :=
  ∀ F : Frame,
    F = byteView F 0 ++ byteView F 1 ++ byteView F 2 ++ byteView F 3 ++ byteView F 4 ∧
    assemble F = [byteView F 0, byteView F 1, byteView F 2, byteView F 3, byteView F 4] ∧
    ∀ (j : Fin 5) (m : Fin 8) (h : 8 * j.val + m.val < 40),
      (byteView F j).getLsbD (7 - m.val) = seqBit F ⟨8 * j.val + m.val, h⟩

/-- R96. The checksum is the sum of the four data bytes modulo 256, which is what adding them one at a time in eight
bits gives. -/
def Obligations.ChecksumIsTheByteSum : Prop :=
  ∀ F : Frame,
    (checksum F).toNat =
      ((byteView F 0).toNat + (byteView F 1).toNat + (byteView F 2).toNat + (byteView F 3).toNat) % 256 ∧
    checksum F = byteView F 0 + byteView F 1 + byteView F 2 + byteView F 3

/-- R97, R54†. Validity is equality with the fifth byte, and of the frames with given data bytes exactly one is
valid. -/
def Obligations.OneValidFramePerData : Prop :=
  (∀ F : Frame, valid F = true ↔ checksum F = byteView F 4) ∧
  (∀ b0 b1 b2 b3 : Byte, ∃! F : Frame, valid F = true ∧
    byteView F 0 = b0 ∧ byteView F 1 = b1 ∧ byteView F 2 = b2 ∧ byteView F 3 = b3)

/-- R98, R102†. The values in tenths are exact, at most 2805, and read as the document's sums. -/
def Obligations.ConversionIsExact : Prop :=
  ∀ F : Frame,
    (h10 F).toNat = 10 * (byteView F 0).toNat + (byteView F 1).toNat ∧ (h10 F).toNat ≤ 2805 ∧
    (t10 F).toNat = 10 * (byteView F 2).toNat + (byteView F 3).toNat ∧ (t10 F).toNat ≤ 2805 ∧
    humidity F = ((byteView F 0).toNat : ℚ) + ((byteView F 1).toNat : ℚ) / 10 ∧
    temperature F = ((byteView F 2).toNat : ℚ) + ((byteView F 3).toNat : ℚ) / 10

/-- R99. A valid frame decodes to its Reading and any other to ChecksumMismatch, and so do the ports show it in
DONE. -/
def Obligations.DoneShowsTheDecodedFrame : Prop :=
  ∀ σ : Regs, σ.st = .done →
    (checksum σ.frame = byteView σ.frame 4 →
      decodeFrame σ.frame = .reading (t10 σ.frame) (h10 σ.frame) ∧
      σ.status = 0x7200#16 ∧ σ.tempX10 = t10 σ.frame ∧ σ.humX10 = h10 σ.frame) ∧
    (checksum σ.frame ≠ byteView σ.frame 4 →
      decodeFrame σ.frame = .checksumMismatch ∧ σ.status = 0x7600#16 ∧ σ.tempX10 = 0#12 ∧ σ.humX10 = 0#12)

/-! ## Invariants -/

/-- R24†. The invariants hold in the reset state, in every legal configuration. -/
def Obligations.InvariantsHoldAtReset : Prop :=
  (∀ c : Config, c.Wf → Inv c Regs.reset) ∧ SafeState State.reset

/-- R24†. Every step from a state that meets the invariants leads to one that does. -/
def Obligations.StepKeepsTheInvariants : Prop :=
  ∀ s t : State, SafeState s → step s = .next t → SafeState t

/-- R15, R16. Outside the waits `cnt` is 0, after a timeout it is `CEILING`; every step keeps that. -/
def Obligations.StepKeepsTheCountLaw : Prop :=
  (∀ c : Config, CountLaw c Regs.reset) ∧
  (∀ s t : State, SafeState s → CountLaw s.cfg s.regs → step s = .next t → CountLaw t.cfg t.regs)

/-- R4, R14 to R16. Under the invariants every counter fits the width the spec gives its register, and those widths
are the least that do. -/
def Obligations.CountersFitTheirRegisters : Prop :=
  (∀ (c : Config) (σ : Regs), c.Wf → Inv c σ →
    σ.tmr < 2 ^ c.wTmr ∧ σ.cnt < 2 ^ c.wCnt ∧ σ.dur < 2 ^ c.wCnt ∧ σ.i.val < 2 ^ 6) ∧
  (∀ c : Config, c.tLowTicks ≤ 2 ^ c.wTmr ∧ (∀ w, c.tLowTicks ≤ 2 ^ w → c.wTmr ≤ w) ∧
    c.ceiling < 2 ^ c.wCnt ∧ (∀ w, c.ceiling < 2 ^ w → c.wCnt ≤ w))

/-! ## Runs -/

/-- R76†. Every exchange ends: with no reset, DONE or FAILED is reached within
`1 + T_LOW_TICKS + T_HIGH_TICKS + 81 * (CEILING + 1)` steps of the acceptance of START, whatever the line does. -/
def Obligations.EveryExchangeEnds : Prop :=
  ∀ s : State, s.cfg.Wf → s.regs.busy = false → s.input.start = true →
    (∀ k, k < longestExchange s.cfg → (s.inputAt k).rst = false) →
    ∃ n t, 1 ≤ n ∧ n ≤ 1 + s.cfg.tLowTicks + s.cfg.tHighTicks + 81 * (s.cfg.ceiling + 1) ∧
      Sys2Proof.core.run n s = .next t ∧ t.regs.done = true

/-- R76†. No exchange is shorter than the spec says: counting from the acceptance of START, DONE is not reached before
`T_LOW_TICKS + T_HIGH_TICKS + 82` steps, nor FAILED before `1 + T_LOW_TICKS + T_HIGH_TICKS + CEILING + 1`. -/
def Obligations.NoExchangeIsShorter : Prop :=
  ∀ (s t : State) (n : Nat), s.cfg.Wf → s.regs.busy = false → s.input.start = true →
    (∀ k, k < n → (s.inputAt k).rst = false) → 1 ≤ n → Sys2Proof.core.run n s = .next t →
    (n < s.cfg.tLowTicks + s.cfg.tHighTicks + 82 → t.regs.st ≠ .done) ∧
    (n < 1 + s.cfg.tLowTicks + s.cfg.tHighTicks + s.cfg.ceiling + 1 → t.regs.st ≠ .failed)

/-- R82†. The waveform of one exchange, acceptance as step 0: released in step 0, Low during steps 1 to `T_LOW_TICKS`,
High during the next `T_HIGH_TICKS`, and released from then on until another START is accepted; a START given while
the exchange goes on is not accepted (R74). -/
def Obligations.StartSequenceWaveform : Prop :=
  ∀ (s t : State) (n : Nat), s.cfg.Wf → s.regs.busy = false → s.input.start = true →
    (∀ k, k < n → (s.inputAt k).rst = false) → Sys2Proof.core.run n s = .next t →
    (n = 0 → t.regs.lineDrive = none) ∧
    (1 ≤ n → n ≤ s.cfg.tLowTicks → t.regs.lineDrive = some .low) ∧
    (s.cfg.tLowTicks < n → n ≤ s.cfg.tLowTicks + s.cfg.tHighTicks → t.regs.lineDrive = some .high) ∧
    (s.cfg.tLowTicks + s.cfg.tHighTicks < n →
      (∀ k u, s.cfg.tLowTicks + s.cfg.tHighTicks < k → k < n → Sys2Proof.core.run k s = .next u →
        u.regs.busy = true ∨ u.input.start = false) →
      t.regs.lineDrive = none)

/-- R85. A stay in a polling state that is entered with `cnt = 0` ends within `CEILING + 1` steps. -/
def Obligations.EveryWaitIsBounded : Prop :=
  ∀ s : State, s.cfg.Wf → s.regs.st = .awaitAck ∨ s.regs.st = .waitHigh ∨ s.regs.st = .measureHigh →
    s.regs.cnt = 0 → (∀ k, k < s.cfg.ceiling + 1 → (s.inputAt k).rst = false) →
    ∃ n t, 1 ≤ n ∧ n ≤ s.cfg.ceiling + 1 ∧ Sys2Proof.core.run n s = .next t ∧ t.regs.st ≠ s.regs.st

/-- R116, R86. From the entry of AWAIT_ACK: a High run of `a <= CEILING` polls and a Low poll lead to
WAIT_HIGH; `CEILING + 1` High polls are Timeout(AwaitAck). -/
def Obligations.AwaitAckRun : Prop :=
  ∀ (s : State) (a : Nat) (polls rest : List Input), s.cfg.Wf → s.regs.st = .awaitAck → s.regs.cnt = 0 →
    s.inputs = polls ++ rest → (∀ x ∈ polls, x.rst = false) →
    (a ≤ s.cfg.ceiling → polls.map Input.line = List.replicate a .high ++ [.low] →
      ∃ t, Sys2Proof.core.run (a + 1) s = .next t ∧ t.inputs = rest ∧
        t.regs = { s.regs with st := .waitHigh, cnt := 0 }) ∧
    (polls.map Input.line = List.replicate (s.cfg.ceiling + 1) .high →
      ∃ t, Sys2Proof.core.run (s.cfg.ceiling + 1) s = .next t ∧ t.inputs = rest ∧
        t.regs = { s.regs with st := .failed, cnt := s.cfg.ceiling, fphase := .awaitAck })

/-- R117. From the entry of WAIT_HIGH, with the first sample of a Low run already used up: `CEILING + 1`
further Low polls, a run of `CEILING + 2`, are Timeout(WaitHigh, i). -/
def Obligations.LongLowRunTimesOut : Prop :=
  ∀ (s : State) (polls rest : List Input), s.cfg.Wf → s.regs.st = .waitHigh → s.regs.cnt = 0 →
    s.inputs = polls ++ rest → (∀ x ∈ polls, x.rst = false) →
    polls.map Input.line = List.replicate (s.cfg.ceiling + 1) .low →
    ∃ t, Sys2Proof.core.run (s.cfg.ceiling + 1) s = .next t ∧ t.inputs = rest ∧
      t.regs = { s.regs with st := .failed, cnt := s.cfg.ceiling, fphase := .waitHigh }

/-- R91† items 4 and 5. From the entry of WAIT_HIGH, with the first sample of a Low run of `p.1` already used up: the
rest of it, a High run of `p.2` and a Low poll append the bit that the length of the High run classifies as. -/
def Obligations.PulseAppendsItsBit : Prop :=
  ∀ (s : State) (p : Pulse) (polls rest : List Input), s.cfg.Wf → s.regs.st = .waitHigh → s.regs.cnt = 0 →
    p.Passes s.cfg → s.inputs = polls ++ rest → (∀ x ∈ polls, x.rst = false) →
    polls.map Input.line = List.replicate (p.1 - 1) .low ++ List.replicate p.2 .high ++ [.low] →
    ∃ t, Sys2Proof.core.run (p.1 + p.2) s = .next t ∧ t.inputs = rest ∧
      t.regs.i.val = min (s.regs.i.val + 1) 39 ∧
      t.regs = { s.regs with
        st := if s.regs.i.val = 39 then .done else .waitHigh
        i := t.regs.i, cnt := 0, dur := 0
        frame := append s.regs.frame (decide (s.cfg.threshTicks < p.2)) }

/-- R118. From the entry of WAIT_HIGH: after a Low run that passes, a High run of `CEILING + 2` samples is
Timeout(MeasureHigh, i); nothing is appended and both counters keep `CEILING`. -/
def Obligations.LongHighRunTimesOut : Prop :=
  ∀ (s : State) (lam : Nat) (polls rest : List Input), s.cfg.Wf → s.regs.st = .waitHigh → s.regs.cnt = 0 →
    lam ≤ s.cfg.ceiling → s.inputs = polls ++ rest → (∀ x ∈ polls, x.rst = false) →
    polls.map Input.line = List.replicate lam .low ++ List.replicate (s.cfg.ceiling + 2) .high →
    ∃ t, Sys2Proof.core.run (lam + s.cfg.ceiling + 2) s = .next t ∧ t.inputs = rest ∧
      t.regs = { s.regs with
        st := .failed, cnt := s.cfg.ceiling, dur := s.cfg.ceiling, fphase := .measureHigh }

/-- R91†, R35. A whole exchange: START, the start sequence, `a` High polls, forty pulses that pass, and a last Low
poll end in DONE after `1 + T_LOW_TICKS + T_HIGH_TICKS + a + Σ (λ_k + h_k) + 1` steps, and bit `k` by arrival of the
frame is the classification of the `k`-th High run. -/
def Obligations.ExchangeReadsTheFrame : Prop :=
  ∀ (s : State) (a : Nat) (pulses : List Pulse) (first : Input) (lead polls rest : List Input),
    s.cfg.Wf → s.regs.busy = false → s.inputs = first :: (lead ++ polls ++ rest) →
    first.rst = false → first.start = true → lead.length = s.cfg.tLowTicks + s.cfg.tHighTicks →
    (∀ x ∈ lead ++ polls, x.rst = false) → a ≤ s.cfg.ceiling → pulses.length = 40 →
    (∀ p ∈ pulses, p.Passes s.cfg) →
    polls.map Input.line = List.replicate a .high ++ waveform pulses ++ [.low] →
    ∃ t, Sys2Proof.core.run
        (1 + s.cfg.tLowTicks + s.cfg.tHighTicks + a + waveformTicks pulses + 1) s = .next t ∧
      t.inputs = rest ∧ t.regs = ⟨.done, 39, t.regs.frame, 0, 0, 0, .none⟩ ∧
      ∀ (k : Fin 40) (p : Pulse), pulses[k.val]? = some p →
        seqBit t.regs.frame k = decide (s.cfg.threshTicks < p.2)

/-- R6, R150†. Tick counts read as physical time: the two drives last what the parameters say, and the longest wait
`(CEILING + 1) / P` microseconds. -/
def Obligations.DrivesLastTheirMicroseconds : Prop :=
  ∀ c : Config, c.Wf →
    ticksToMicros c c.tLowTicks = c.tLowUs ∧ ticksToMicros c c.tHighTicks = c.tHighUs ∧
    ticksToMicros c (longestWait c) = ((c.ceiling : ℚ) + 1) / c.ticksPerUs
end

