-- ==== Sys2Proof/Laws/State.lean ====
section
/-! SUPPORT. Laws/State.lean: one lemma per field per update of the state, and the inputs a step leaves behind. -/

namespace Sys2Proof.Machine

@[simp] theorem State.setRegs_cfg (s : State) (r : Regs) : (s.setRegs r).cfg = s.cfg := rfl
@[simp] theorem State.setRegs_regs (s : State) (r : Regs) : (s.setRegs r).regs = r := rfl
@[simp] theorem State.setRegs_inputs (s : State) (r : Regs) : (s.setRegs r).inputs = s.inputs := rfl
@[simp] theorem State.setRegs_tick (s : State) (r : Regs) : (s.setRegs r).tick = s.tick := rfl
@[simp] theorem State.setRegs_self (s : State) : s.setRegs s.regs = s := rfl
@[simp] theorem State.setRegs_setRegs (s : State) (r r' : Regs) : (s.setRegs r).setRegs r' = s.setRegs r' := rfl
@[simp] theorem State.setRegs_inputAt (s : State) (r : Regs) (k : Nat) : (s.setRegs r).inputAt k = s.inputAt k := rfl
@[simp] theorem State.setRegs_input (s : State) (r : Regs) : (s.setRegs r).input = s.input := rfl
@[simp] theorem State.setRegs_lineRead (s : State) (r : Regs) : (s.setRegs r).lineRead = s.lineRead := rfl

@[simp] theorem State.advance_cfg (s : State) : s.advance.cfg = s.cfg := rfl
@[simp] theorem State.advance_regs (s : State) : s.advance.regs = s.regs := rfl
@[simp] theorem State.advance_inputs (s : State) : s.advance.inputs = s.inputs.tail := rfl
@[simp] theorem State.advance_tick (s : State) : s.advance.tick = s.tick + 1 := rfl

@[simp] theorem State.withInput_cfg (s : State) (x : Input) : (s.withInput x).cfg = s.cfg := rfl
@[simp] theorem State.withInput_regs (s : State) (x : Input) : (s.withInput x).regs = s.regs := rfl
@[simp] theorem State.withInput_inputs (s : State) (x : Input) : (s.withInput x).inputs = x :: s.inputs.tail := rfl
@[simp] theorem State.withInput_tick (s : State) (x : Input) : (s.withInput x).tick = s.tick := rfl
@[simp] theorem State.withInput_input (s : State) (x : Input) : (s.withInput x).input = x := rfl

theorem State.inputAt_zero (s : State) : s.inputAt 0 = s.input := rfl

/-- After a tick every input of the stimulus, and every free input after it, is one place nearer. -/
theorem State.inputAt_advance (s : State) (k : Nat) : s.advance.inputAt k = s.inputAt (k + 1) := by
  have tick : s.tick + 1 + k = s.tick + (k + 1) := by omega
  simp [State.inputAt, tick]

/-- While the stimulus lasts, its head is the input of the step. -/
theorem State.input_of_inputs_cons {s : State} {x : Input} {xs : List Input} (h : s.inputs = x :: xs) :
    s.input = x := by
  simp [State.input, State.inputAt, h]

/-- An input that the stimulus holds. -/
theorem State.inputAt_of_lt {s : State} {k : Nat} (h : k < s.inputs.length) : s.inputAt k = s.inputs[k] := by
  simp [State.inputAt, h]

end Sys2Proof.Machine
end

