-- ==== Sys2Proof/Laws/Ops.lean ====
section
/-! SUPPORT. Laws/Ops.lean: what each shared operation does, said once. -/

namespace Sys2Proof.Machine

@[simp] theorem stOfCode_stCode (st : St) : stOfCode (stCode st) = st := by cases st <;> rfl

@[simp] theorem afterTick_next (t : State) : afterTick (.next t) = .next t.advance := rfl

@[simp] theorem raiseTimeout_st (σ : Regs) (p : Phase) : (raiseTimeout σ p).st = .failed := rfl
@[simp] theorem raiseTimeout_fphase (σ : Regs) (p : Phase) : (raiseTimeout σ p).fphase = p := rfl
@[simp] theorem raiseTimeout_i (σ : Regs) (p : Phase) : (raiseTimeout σ p).i = σ.i := rfl
@[simp] theorem raiseTimeout_frame (σ : Regs) (p : Phase) : (raiseTimeout σ p).frame = σ.frame := rfl
@[simp] theorem raiseTimeout_tmr (σ : Regs) (p : Phase) : (raiseTimeout σ p).tmr = σ.tmr := rfl
@[simp] theorem raiseTimeout_cnt (σ : Regs) (p : Phase) : (raiseTimeout σ p).cnt = σ.cnt := rfl
@[simp] theorem raiseTimeout_dur (σ : Regs) (p : Phase) : (raiseTimeout σ p).dur = σ.dur := rfl

/-- Beginning an exchange leaves nothing of the registers before (R72, R27). -/
theorem startExchange_eq (σ : Regs) : startExchange σ = ⟨.startLow, 0, 0#40, 0, 0, 0, .none⟩ := rfl

@[simp] theorem hold_eq (σ : Regs) : hold σ = σ := rfl

/-- A bounded wait either fails or stays, by the count alone (R85). -/
theorem boundedWait_cases (c : Config) (σ : Regs) (p : Phase) (stay : Regs) :
    (σ.cnt + 1 > c.ceiling ∧ boundedWait c σ p stay = raiseTimeout σ p) ∨
    (σ.cnt + 1 ≤ c.ceiling ∧ boundedWait c σ p stay = stay) := by
  unfold boundedWait
  split
  · exact .inl ⟨‹_›, rfl⟩
  · exact .inr ⟨by omega, rfl⟩

/-- The fall of a pulse, by whether the bit was the last one (R88). -/
theorem appendBit_cases (σ : Regs) (b : Bool) :
    (σ.i = 39 ∧ appendBit σ b = { σ with st := .done, frame := append σ.frame b, cnt := 0, dur := 0 }) ∨
    (σ.i ≠ 39 ∧ appendBit σ b =
      { σ with st := .waitHigh, i := σ.i + 1, frame := append σ.frame b, cnt := 0, dur := 0 }) := by
  unfold appendBit
  split
  · exact .inl ⟨‹_›, rfl⟩
  · exact .inr ⟨‹_›, rfl⟩

/-- The index after a bit that is not the last one, as a number (R12). -/
theorem index_succ {i : Fin 40} (h : i ≠ 39) : (i + 1).val = i.val + 1 := by
  have : i.val ≠ 39 := fun e => h (Fin.ext e)
  simp only [Fin.val_add, Fin.val_one]
  omega

/-- A step of a holding state, as the two host commands (R70). -/
theorem stateStep_holding {c : Config} {σ : Regs} (h : σ.st.isHolding = true) (start : Bool) (line : Level) :
    stateStep c σ start line = if start then startExchange σ else σ := by
  unfold stateStep holdingStep
  cases hst : σ.st <;> simp_all [St.isHolding]

/-- A busy state does not read `start` (R74). -/
theorem stateStep_busy {c : Config} {σ : Regs} (h : σ.st.isHolding = false) (a b : Bool) (line : Level) :
    stateStep c σ a line = stateStep c σ b line := by
  unfold stateStep
  cases hst : σ.st <;> simp_all [St.isHolding]

theorem busy_eq_not_holding (σ : Regs) : σ.busy = !σ.st.isHolding := by
  unfold Regs.busy St.isHolding
  cases σ.st <;> rfl

/-- The operation a step selects is the dispatch of R70 over the registers. -/
theorem exec_selectOperation (s : State) :
    exec (selectOperation s) s = .next (s.setRegs (blockStep s.cfg s.regs s.input)) := by
  unfold selectOperation blockStep
  by_cases h : s.input.rst = true
  · simp [h, exec, execRst]
  · simp only [h, Bool.false_eq_true, if_false]
    unfold stateStep
    cases hst : s.regs.st <;> rfl

/-- One step over a legal configuration, said once: the registers make the transition of R70 and a tick passes. -/
theorem step_eq_blockStep {s : State} (h : s.cfg.Wf) :
    step s = .next (s.setRegs (blockStep s.cfg s.regs s.input)).advance := by
  unfold step
  rw [if_pos h, exec_selectOperation]
  rfl

/-- Inversion of a step: a next state comes from a legal configuration and from the transition of R70. -/
theorem step_next {s t : State} (h : step s = .next t) :
    s.cfg.Wf ∧ t = (s.setRegs (blockStep s.cfg s.regs s.input)).advance := by
  by_cases hw : s.cfg.Wf
  · rw [step_eq_blockStep hw] at h
    exact ⟨hw, (Host.Outcome.next.inj h).symm⟩
  · simp [step, hw] at h

/-- Inversion of the transition of R70, by state: everything one step can do to the registers. -/
theorem blockStep_cases (c : Config) (σ : Regs) (x : Input) :
    (x.rst = true ∧ blockStep c σ x = Regs.reset) ∨
    (x.rst = false ∧ σ.st.isHolding = true ∧ x.start = true ∧ blockStep c σ x = startExchange σ) ∨
    (x.rst = false ∧ σ.st.isHolding = true ∧ x.start = false ∧ blockStep c σ x = σ) ∨
    (x.rst = false ∧ σ.st = .startLow ∧ blockStep c σ x = startLow c σ) ∨
    (x.rst = false ∧ σ.st = .startHigh ∧ blockStep c σ x = startHigh c σ) ∨
    (x.rst = false ∧ σ.st = .awaitAck ∧ blockStep c σ x = awaitAck c σ x.line) ∨
    (x.rst = false ∧ σ.st = .waitHigh ∧ blockStep c σ x = waitHigh c σ x.line) ∨
    (x.rst = false ∧ σ.st = .measureHigh ∧ blockStep c σ x = measureHigh c σ x.line) := by
  unfold blockStep
  cases hr : x.rst
  · cases hst : σ.st <;> cases hs : x.start <;> simp [stateStep, hst, holdingStep, St.isHolding]
  · exact .inl ⟨rfl, rfl⟩

end Sys2Proof.Machine
end

