-- ==== Sys2Proof/Laws/Duties.lean ====
section
/-! SUPPORT. Laws/Duties.lean: how the duties of the host (R142 to R146) hang together, and that the run R146 permits, a
reset of a busy block and then the whole wait of R141, is one that keeps them. -/

namespace Sys2Proof.Machine

/-- A host that never interrupts owes no wait: the plain case of R146. -/
theorem waitsOutInterruptions_of_neverInterrupts (c : Config) {trace : List (Regs × Input)}
    (h : neverInterrupts trace = true) : waitsOutInterruptions c 0 trace = true := by
  induction trace with
  | nil => rfl
  | cons step rest ih =>
    obtain ⟨σ, x⟩ := step
    simp only [neverInterrupts, Bool.and_eq_true] at h
    unfold waitsOutInterruptions
    cases hr : x.rst
    · simp [ih h.2]
    · have idle : σ.busy = false := by simpa [hr] using h.1
      simp [idle, ih h.2]

/-- The wait after an interruption is a case of the minimum interval, since a reset counts as an exchange for it
(R141, R143). -/
theorem waitsOutInterruptions_of_keepsInterval {c : Config} {since owed : Nat} {trace : List (Regs × Input)}
    (within : owed ≤ c.minIntervalTicks - since) (h : keepsInterval c since trace = true) :
    waitsOutInterruptions c owed trace = true := by
  induction trace generalizing since owed with
  | nil => rfl
  | cons step rest ih =>
    obtain ⟨σ, x⟩ := step
    unfold keepsInterval at h
    unfold waitsOutInterruptions
    cases hr : x.rst <;> cases hb : σ.busy <;> simp only [hr, hb, Bool.or_true, Bool.or_false,
      Bool.true_or, true_and, Bool.false_eq_true, if_true, if_false, Bool.and_eq_true, Bool.or_eq_true,
      decide_eq_true_eq] at h ⊢
    · exact ⟨h.1.imp_right fun (waited : c.minIntervalTicks ≤ since) => show owed = 0 by omega,
        ih (since := since + 1) (owed := owed - 1) (by omega) h.2⟩
    · exact ih (since := 0) (owed := owed - 1) (by omega) h
    · exact ih (since := 0) (owed := owed - 1) (by omega) h
    · exact ih (since := 0) (owed := c.minIntervalTicks) (by omega) h

/-- An input of a waiting host: neither reset nor START. -/
abbrev Quiet (x : Input) : Prop := x.rst = false ∧ x.start = false

/-- A quiet step of an idle block changes nothing (R71, R73). -/
theorem blockStep_idle_quiet (c : Config) {σ : Regs} {x : Input} (idle : σ.st = .idle) (quiet : Quiet x) :
    blockStep c σ x = σ := by
  simp [blockStep, stateStep, holdingStep, hold, idle, quiet.1, quiet.2]

/-- The trace of a host that waits on an idle block, and of what it does after. -/
theorem traceBlock_idle_quiet (c : Config) {σ : Regs} {waits rest : List Input} (idle : σ.st = .idle)
    (quiet : ∀ x ∈ waits, Quiet x) :
    traceBlock c σ (waits ++ rest) = waits.map (fun x => (σ, x)) ++ traceBlock c σ rest := by
  induction waits with
  | nil => rfl
  | cons x xs ih =>
    obtain ⟨hx, hxs⟩ := List.forall_mem_cons.1 quiet
    simp [traceBlock, blockStep_idle_quiet c idle hx, ih hxs]

/-- Waiting steps count toward the interval (R143). -/
theorem keepsInterval_quiet (c : Config) {σ : Regs} {waits : List Input} {rest : List (Regs × Input)} (since : Nat)
    (idle : σ.st = .idle) (quiet : ∀ x ∈ waits, Quiet x) :
    keepsInterval c since (waits.map (fun x => (σ, x)) ++ rest) = keepsInterval c (since + waits.length) rest := by
  have free : σ.busy = false := by simp [Regs.busy, idle]
  induction waits generalizing since with
  | nil => rfl
  | cons x xs ih =>
    obtain ⟨hx, hxs⟩ := List.forall_mem_cons.1 quiet
    simp [keepsInterval, hx.1, hx.2, free, ih _ hxs, Nat.add_assoc, Nat.add_comm 1]

/-- Waiting steps keep the duty of the START pulse (R144). -/
theorem pulsesStart_quiet {σ : Regs} {waits : List Input} {rest : List (Regs × Input)} (wasBusy : Bool)
    (idle : σ.st = .idle) (quiet : ∀ x ∈ waits, Quiet x) :
    pulsesStart wasBusy (waits.map (fun x => (σ, x)) ++ rest) = pulsesStart (wasBusy && waits.isEmpty) rest := by
  have free : σ.busy = false := by simp [Regs.busy, idle]
  induction waits generalizing wasBusy with
  | nil => simp
  | cons x xs ih =>
    obtain ⟨hx, hxs⟩ := List.forall_mem_cons.1 quiet
    simp [pulsesStart, hx.2, free, ih false hxs]

/-- The run that R146 permits: a reset, the minimum interval, a START, a reset of the busy block, the minimum interval
again (the wait of R141, of one step at least), and a START. -/
theorem hostKeepsDuties_reset_then_wait (c : Config) {firstReset start reset again : Input} {waits waits' : List Input}
    (hr : firstReset.rst = true) (quiet : ∀ x ∈ waits, Quiet x) (long : c.minIntervalTicks ≤ waits.length)
    (hs : start.rst = false ∧ start.start = true) (hreset : reset.rst = true ∧ reset.start = false)
    (quiet' : ∀ x ∈ waits', Quiet x) (long' : c.minIntervalTicks ≤ waits'.length) (some' : waits' ≠ [])
    (ha : again.rst = false ∧ again.start = true) :
    hostKeepsDuties c (firstReset :: (waits ++ start :: reset :: (waits' ++ [again]))) = true := by
  have started : blockStep c Regs.reset start = startExchange Regs.reset := by
    simp [blockStep, hs.1, hs.2, stateStep, holdingStep, Regs.reset]
  have wiped : blockStep c (startExchange Regs.reset) reset = Regs.reset := by simp [blockStep, hreset.1]
  have busy : (startExchange Regs.reset).busy = true := rfl
  have free : Regs.reset.busy = false := rfl
  have idle : Regs.reset.st = .idle := rfl
  have trace : traceBlock c Regs.reset (waits ++ start :: reset :: (waits' ++ [again])) =
      waits.map (fun x => (Regs.reset, x)) ++ (Regs.reset, start) :: (startExchange Regs.reset, reset) ::
        (waits'.map (fun x => (Regs.reset, x)) ++ [(Regs.reset, again)]) := by
    rw [traceBlock_idle_quiet c idle quiet, traceBlock, started, traceBlock, wiped,
      traceBlock_idle_quiet c idle quiet']
    rfl
  have interval : keepsInterval c 0 (traceBlock c Regs.reset (waits ++ start :: reset :: (waits' ++ [again]))) =
      true := by
    rw [trace, keepsInterval_quiet c 0 idle quiet]
    simp [keepsInterval, hs.1, hs.2, hreset.1, busy, free, long, keepsInterval_quiet c 0 idle quiet', ha.1, ha.2,
      long']
  have pulses : pulsesStart false (traceBlock c Regs.reset (waits ++ start :: reset :: (waits' ++ [again]))) =
      true := by
    rw [trace, pulsesStart_quiet false idle quiet]
    simp [pulsesStart, hs.2, hreset.2, busy, free, pulsesStart_quiet true idle quiet', ha.2, some']
  rw [hostKeepsDuties, hr, interval, pulses, waitsOutInterruptions_of_keepsInterval (owed := 0) (Nat.zero_le _) interval]
  rfl

end Sys2Proof.Machine
end

