-- ==== Sys2Proof/Laws/PerInstr.lean ====
section
/-! SUPPORT. Laws/PerInstr.lean: statements made per operation, one lemma a constructor. Family TableRowFits: the
encoding of the operation is one that its own row of spec/opcode_table.json admits. -/

namespace Sys2Proof.Laws.TableRowFits

/-- The table has a row under the operation's mnemonic, and it admits the operation's encoding. -/
def Statement (i : Instr) : Prop := ∃ r ∈ opcodeTable, r.mnemonic = i.mnemonic ∧ r.Admits (encode i)

/-- The witness row, by its place in the table. -/
theorem of_row {i : Instr} (n : Nat) (r : TableRow) (h : opcodeTable[n]? = some r) (name : r.mnemonic = i.mnemonic)
    (admits : r.Admits (encode i)) : Statement i :=
  ⟨r, List.mem_of_getElem? h, name, admits⟩

theorem idle : Statement .idle := of_row 0 _ rfl rfl (by decide)
theorem startLow : Statement .startLow := of_row 1 _ rfl rfl (by decide)
theorem startHigh : Statement .startHigh := of_row 2 _ rfl rfl (by decide)
theorem awaitAck : Statement .awaitAck := of_row 3 _ rfl rfl (by decide)
theorem waitHigh : Statement .waitHigh := of_row 4 _ rfl rfl (by decide)
theorem measureHigh : Statement .measureHigh := of_row 5 _ rfl rfl (by decide)
theorem done : Statement .done := of_row 6 _ rfl rfl (by decide)
theorem failed : Statement .failed := of_row 7 _ rfl rfl (by decide)
theorem start : Statement .start := of_row 8 _ rfl rfl (by decide)
theorem nop : Statement .nop := of_row 9 _ rfl rfl (by decide)
theorem rst : Statement .rst := of_row 10 _ rfl rfl (by decide)
theorem sym0 (lam h : Nat) : Statement (.sym0 lam h) := of_row 11 _ rfl rfl ⟨rfl, Nat.and_zero _⟩
theorem sym1 (lam h : Nat) : Statement (.sym1 lam h) := of_row 12 _ rfl rfl ⟨rfl, Nat.and_zero _⟩

end Sys2Proof.Laws.TableRowFits
end

