-- ==== Sys2Proof/Laws/Run.lean ====
section
/-! SUPPORT. Laws/Run.lean: a run of the machine is a run of the transition of R70 over the inputs it meets. -/

namespace Sys2Proof.Machine

/-- The next `n` inputs, the first one first. -/
def State.inputsAhead (s : State) (n : Nat) : List Input := (List.range n).map s.inputAt

theorem State.inputsAhead_zero (s : State) : s.inputsAhead 0 = [] := rfl

theorem State.inputsAhead_succ (s : State) (n : Nat) (r : Regs) :
    s.inputsAhead (n + 1) = s.input :: (s.setRegs r).advance.inputsAhead n := by
  simp [State.inputsAhead, List.range_succ_eq_map, State.inputAt_advance, State.inputAt_zero]

/-- While the stimulus lasts, the inputs ahead are its own. -/
theorem State.inputsAhead_of_inputs {s : State} {xs rest : List Input} (h : s.inputs = xs ++ rest) :
    s.inputsAhead xs.length = xs := by
  refine List.ext_getElem (by simp [State.inputsAhead]) fun k hk hk' => ?_
  simp [State.inputsAhead, State.inputAt, h, List.getElem?_append_left hk', List.getElem?_eq_getElem hk']

theorem runBlock_append (c : Config) (σ : Regs) (xs ys : List Input) :
    runBlock c σ (xs ++ ys) = runBlock c (runBlock c σ xs) ys := by
  induction xs generalizing σ with
  | nil => rfl
  | cons x xs ih => exact ih _

/-- One step at the head of a run of any machine. -/
theorem run_succ_of_step (M : Host.Core) {n : Nat} {s t : M.State} (h : M.step s = .next t) :
    M.run (n + 1) s = M.run n t := by
  simp [Host.Core.run, h]

/-- A run of `n` steps on a legal configuration: it never stops, the registers go through `runBlock`, and `n` inputs
and `n` ticks are used up. -/
theorem core_run_eq (n : Nat) (s : State) (h : s.cfg.Wf) :
    Sys2Proof.core.run n s =
      .next ⟨s.cfg, runBlock s.cfg s.regs (s.inputsAhead n), s.inputs.drop n, s.tick + n⟩ := by
  induction n generalizing s with
  | zero => rfl
  | succ n ih =>
    refine (run_succ_of_step Sys2Proof.core (step_eq_blockStep h)).trans ((ih (s.setRegs (blockStep s.cfg s.regs s.input)).advance h).trans ?_)
    rw [State.inputsAhead_succ s n (blockStep s.cfg s.regs s.input)]
    simp [runBlock, Nat.add_comm, Nat.add_left_comm]

/-- The first step of a run over a legal configuration. -/
theorem core_run_succ {s : State} (h : s.cfg.Wf) (n : Nat) :
    Sys2Proof.core.run (n + 1) s =
      Sys2Proof.core.run n (s.setRegs (blockStep s.cfg s.regs s.input)).advance :=
  run_succ_of_step Sys2Proof.core (step_eq_blockStep h)

/-- A run goes on from where its first part ends. -/
theorem core_run_add {s t : State} (h : s.cfg.Wf) {a : Nat} (run : Sys2Proof.core.run a s = .next t) (b : Nat) :
    Sys2Proof.core.run (a + b) s = Sys2Proof.core.run b t := by
  induction a generalizing s with
  | zero => cases run; rw [Nat.zero_add]
  | succ a ih =>
    rw [show a + 1 + b = a + b + 1 by omega]
    exact (core_run_succ h _).trans
      (ih (s := (s.setRegs (blockStep s.cfg s.regs s.input)).advance) h ((core_run_succ h a).symm.trans run))

/-- After `a` steps the inputs ahead are those that stood `a` places further on. -/
theorem inputAt_of_core_run {s t : State} (h : s.cfg.Wf) {a : Nat} (run : Sys2Proof.core.run a s = .next t)
    (k : Nat) : t.inputAt k = s.inputAt (a + k) := by
  induction a generalizing s with
  | zero => cases run; rw [Nat.zero_add]
  | succ a ih =>
    rw [ih (s := (s.setRegs (blockStep s.cfg s.regs s.input)).advance) h ((core_run_succ h a).symm.trans run),
      State.inputAt_advance, State.setRegs_inputAt]
    congr 1
    omega

/-- A property of the registers that every transition keeps holds along every run (the induction of R24, said once). -/
theorem runBlock_invariant {c : Config} {P : Regs → Prop} (keep : ∀ σ x, P σ → P (blockStep c σ x))
    {σ : Regs} (h : P σ) (xs : List Input) : P (runBlock c σ xs) := by
  induction xs generalizing σ with
  | nil => exact h
  | cons x xs ih => exact ih (keep σ x h)

end Sys2Proof.Machine
end

