-- ==== Sys2Proof/Machine/Script.lean ====
section
/-! DEFINITION. Machine/Script.lean: the stimulus scripts of R62, as data and as the input triples they denote. A
script is the spec's notation for a run's inputs and no part of the block (D21). -/

namespace Sys2Proof.Machine

/-- A script (R62). Where the spec says an input does not matter, the script's writer chooses it. -/
inductive Script where
  /-- `RST`: one step with `rst = 1`. -/
  | rst (cmd : Bool) (level : Level)
  /-- `START`: one step with `rst = 0`, `start = 1`. -/
  | start (level : Level)
  /-- `H*n`: `n` steps with the line High. -/
  | high (n : Nat)
  /-- `L*n`: `n` steps with the line Low. -/
  | low (n : Nat)
  /-- `X*n`: one step for each level, the levels arbitrary. -/
  | any (levels : List Level)
  /-- Items one after another. -/
  | andThen (first second : Script)
  /-- `( script )*n`. -/
  | times (body : Script) (n : Nat)
deriving DecidableEq, Repr

/-- One step of polling input: `rst = 0`, `start = 0` (R62). -/
def pollInput (level : Level) : Input := ⟨false, false, level⟩

/-- The input triples a script denotes (R62). -/
def Script.inputs : Script → List Input
  | .rst cmd level => [⟨true, cmd, level⟩]
  | .start level => [⟨false, true, level⟩]
  | .high n => List.replicate n (pollInput .high)
  | .low n => List.replicate n (pollInput .low)
  | .any levels => levels.map pollInput
  | .andThen first second => first.inputs ++ second.inputs
  | .times body n => (List.replicate n body.inputs).flatten

/-- `Z(lo)` or `O(lo)` with its High run `h` (R62): a Low run of `lo` samples and a High run of `h`. -/
def Script.symbol (lo h : Nat) : Script := .andThen (.low lo) (.high h)

end Sys2Proof.Machine
end

