-- ==== Sys2Proof/Tests/Slice0.lean ====
section
/-! SUPPORT. Tests/Slice0.lean: the smoke test of WellFormed, encodings written out from the spec's tables, single-step
vectors of spec/95_test_vectors.md, and a named witness for the hypotheses of every statement that has some. Expected
values are the spec's; the section of 95_test_vectors.md stands over each group. -/

namespace Sys2Proof.Machine

/-! ## Helpers -/

/-- A state at the document's parameters and rate `p`, with these registers and these inputs. -/
def testState (p : Nat) (r : Regs) (xs : List Input) : State := ⟨Config.default p, r, xs, 0⟩

/-- The smallest instance: one tick of each drive, threshold and ceiling 1. -/
def tinyConfig : Config := ⟨1, 1, 1, 1, 1, 1⟩

/-- A state of the smallest instance. -/
def tinyState (r : Regs) (xs : List Input) : State := ⟨tinyConfig, r, xs, 0⟩

/-- The registers of a next state. -/
def nextRegs : Host.Outcome State Fault Refusal → Option Regs
  | .next t => some t.regs
  | .fault _ => none
  | .refused _ => none

/-- The inputs `(0, 1, -)`, `(0, 0, H)`, `(0, 0, L)` and `(1, 1, -)` of 95_test_vectors.md. -/
def inStart : Input := ⟨false, true, .low⟩
def inHigh : Input := ⟨false, false, .high⟩
def inLow : Input := ⟨false, false, .low⟩
def inReset : Input := ⟨true, true, .high⟩

/-- Registers of the vectors: (st, i, frame, tmr, cnt, dur, fphase). -/
def doneGood : Regs := ⟨.done, 39, 0x320019004B#40, 0, 0, 0, .none⟩
def doneBad : Regs := ⟨.done, 39, 0x3200190000#40, 0, 0, 0, .none⟩
def failedMeasure : Regs := ⟨.failed, 17, 0x6400#40, 0, 1000, 1000, .measureHigh⟩
def freshExchange : Regs := ⟨.startLow, 0, 0#40, 0, 0, 0, .none⟩

/-! ## WellFormed: each check refuses an ill-formed term (R51, R5) -/

theorem test_wf_sym0_no_low_run : ¬ (Instr.sym0 0 27).Wf (Config.default 1) := by decide
theorem test_wf_sym0_low_run_too_long : ¬ (Instr.sym0 1002 27).Wf (Config.default 1) := by decide
theorem test_wf_sym0_no_high_run : ¬ (Instr.sym0 50 0).Wf (Config.default 1) := by decide
theorem test_wf_sym0_high_run_is_a_one : ¬ (Instr.sym0 50 51).Wf (Config.default 1) := by decide
theorem test_wf_sym1_low_run_too_long : ¬ (Instr.sym1 1002 70).Wf (Config.default 1) := by decide
theorem test_wf_sym1_high_run_is_a_zero : ¬ (Instr.sym1 50 50).Wf (Config.default 1) := by decide
theorem test_wf_sym1_high_run_times_out : ¬ (Instr.sym1 50 1002).Wf (Config.default 1) := by decide
theorem test_wf_boundaries : (Instr.sym0 1001 50).Wf (Config.default 1) ∧ (Instr.sym1 1 51).Wf (Config.default 1) ∧
    (Instr.sym1 1 1001).Wf (Config.default 1) := by decide
theorem test_config_bounds : (Config.default 1).Wf ∧ (Config.default 20).Wf ∧ ¬ (Config.default 0).Wf ∧
    ¬ (Config.default 21).Wf ∧ ¬ Config.Wf ⟨2, 3, 1, 4, 1, 1⟩ ∧ Config.Wf ⟨3, 2, 2, 4, 1, 1⟩ := by decide

/-- R4: `W_TMR` is 15 and 16, `W_CNT` is 10 and 10, at `P = 1` and `P = 2`. -/
theorem test_widths : (Config.default 1).wTmr = 15 ∧ (Config.default 2).wTmr = 16 ∧
    (Config.default 1).wCnt = 10 ∧ (Config.default 2).wCnt = 10 := by decide

/-! ## Decoding: words written out from R55, R59, R140, R51 -/

theorem test_decode_state_codes : (decode (Config.default 1) (.state 0b000#3)).toOption = some .idle ∧
    (decode (Config.default 1) (.state 0b001#3)).toOption = some .startLow ∧
    (decode (Config.default 1) (.state 0b010#3)).toOption = some .startHigh ∧
    (decode (Config.default 1) (.state 0b011#3)).toOption = some .awaitAck ∧
    (decode (Config.default 1) (.state 0b100#3)).toOption = some .waitHigh ∧
    (decode (Config.default 1) (.state 0b101#3)).toOption = some .measureHigh ∧
    (decode (Config.default 1) (.state 0b110#3)).toOption = some .done ∧
    (decode (Config.default 1) (.state 0b111#3)).toOption = some .failed := by decide
theorem test_decode_commands : (decode (Config.default 1) (.command 1#1)).toOption = some .start ∧
    (decode (Config.default 1) (.command 0#1)).toOption = some .nop ∧
    (decode (Config.default 1) (.reset 1#1)).toOption = some .rst := by decide
theorem test_decode_symbols :
    (decode ⟨3, 2, 2, 4, 1, 1⟩ (.wire [.low, .high, .high, .low])).toOption = some (.sym0 1 2) ∧
    (decode ⟨3, 2, 2, 4, 1, 1⟩ (.wire [.low, .high, .high, .high, .low])).toOption = some (.sym1 1 3) := by decide
theorem test_decode_rejects : decode ⟨3, 2, 2, 4, 1, 1⟩ (.reset 0#1) = .error .resetNotAsserted ∧
    decodeWire ⟨3, 2, 2, 4, 1, 1⟩ [.high, .low] = .error .noLowRun ∧
    decodeWire ⟨3, 2, 2, 4, 1, 1⟩ (List.replicate 6 .low ++ [.high, .low]) = .error .lowRunTooLong ∧
    decodeWire ⟨3, 2, 2, 4, 1, 1⟩ [.low, .low] = .error .noHighRun ∧
    decodeWire ⟨3, 2, 2, 4, 1, 1⟩ (.low :: List.replicate 6 .high ++ [.low]) = .error .highRunTooLong ∧
    decodeWire ⟨3, 2, 2, 4, 1, 1⟩ [.low, .high] = .error .unterminated ∧
    decodeWire ⟨3, 2, 2, 4, 1, 1⟩ [.low, .high, .low, .low] = .error .trailingSamples := ⟨rfl, rfl, rfl, rfl, rfl, rfl, rfl⟩
theorem test_table_words : decodeTableWord 8 5 = some .measureHigh ∧ decodeTableWord 8 8 = none ∧
    decodeTableWord 1 1 = some .start ∧ decodeTableWord 1 0 = some .nop := by decide
theorem test_fetch_word_runs : selectOperation (State.reset.withFetchWord 8 3) = .awaitAck ∧
    nextRegs (step (State.reset.withFetchWord 8 3)) = some ⟨.waitHigh, 0, 0#40, 0, 0, 0, .none⟩ := by decide

/-! ## Section 2.1: dispatch, IDLE, START, NOP, reset -/

theorem test_idle_nop : nextRegs (step (testState 1 Regs.reset [inHigh])) = some Regs.reset := by decide
theorem test_idle_start : nextRegs (step (testState 1 Regs.reset [inStart])) = some freshExchange := by decide
theorem test_done_holds : nextRegs (step (testState 1 doneGood [inHigh])) = some doneGood := by decide
theorem test_done_start : nextRegs (step (testState 1 doneGood [inStart])) = some freshExchange := by decide
theorem test_failed_holds : nextRegs (step (testState 1 failedMeasure [inLow])) = some failedMeasure := by decide
theorem test_failed_start : nextRegs (exec .start (testState 1 failedMeasure [inStart])) = some freshExchange := by
  decide
theorem test_start_ignored_while_busy :
    nextRegs (step (testState 1 ⟨.startLow, 0, 0#40, 5, 0, 0, .none⟩ [inStart])) =
      some ⟨.startLow, 0, 0#40, 6, 0, 0, .none⟩ := by decide
theorem test_nop_in_holding_state : nextRegs (exec .nop (testState 1 doneGood [inHigh])) = some doneGood := by decide
theorem test_reset_wins : nextRegs (step (testState 1 doneGood [inReset])) = some Regs.reset ∧
    nextRegs (exec .rst (testState 1 failedMeasure [inReset])) = some Regs.reset := by decide
theorem test_illegal_config_is_refused : step (testState 21 Regs.reset [inHigh]) = .refused .illFormedConfiguration :=
  rfl

/-! ## Section 2.2: the start sequence -/

theorem test_start_low_last_tick :
    nextRegs (step (testState 1 ⟨.startLow, 0, 0#40, 19999, 0, 0, .none⟩ [inHigh])) =
      some ⟨.startHigh, 0, 0#40, 0, 0, 0, .none⟩ ∧
    nextRegs (step (testState 2 ⟨.startLow, 0, 0#40, 19999, 0, 0, .none⟩ [inHigh])) =
      some ⟨.startLow, 0, 0#40, 20000, 0, 0, .none⟩ := by decide
theorem test_start_high_last_tick :
    nextRegs (step (testState 1 ⟨.startHigh, 0, 0#40, 38, 0, 0, .none⟩ [inHigh])) =
      some ⟨.startHigh, 0, 0#40, 39, 0, 0, .none⟩ ∧
    nextRegs (step (testState 1 ⟨.startHigh, 0, 0#40, 39, 0, 0, .none⟩ [inHigh])) =
      some ⟨.awaitAck, 0, 0#40, 0, 0, 0, .none⟩ := by decide

/-! ## Section 2.3: the bit sampler (vectors 3 to 5, 7 to 9, 13, 14, 16 to 18) -/

theorem test_await_ack_at_the_ceiling :
    nextRegs (step (testState 1 ⟨.awaitAck, 0, 0#40, 0, 999, 0, .none⟩ [inHigh])) =
      some ⟨.awaitAck, 0, 0#40, 0, 1000, 0, .none⟩ ∧
    nextRegs (step (testState 1 ⟨.awaitAck, 0, 0#40, 0, 1000, 0, .none⟩ [inHigh])) =
      some ⟨.failed, 0, 0#40, 0, 1000, 0, .awaitAck⟩ := by decide
theorem test_await_ack_low_after_the_ceiling :
    nextRegs (step (testState 1 ⟨.awaitAck, 0, 0#40, 0, 1000, 0, .none⟩ [inLow])) =
      some ⟨.waitHigh, 0, 0#40, 0, 0, 0, .none⟩ := by decide
theorem test_wait_high_timeout :
    nextRegs (step (testState 1 ⟨.waitHigh, 5, 0x6#40, 0, 1000, 0, .none⟩ [inLow])) =
      some ⟨.failed, 5, 0x6#40, 0, 1000, 0, .waitHigh⟩ := by decide
theorem test_wait_high_rise :
    nextRegs (step (testState 1 ⟨.waitHigh, 5, 0x6#40, 0, 1000, 0, .none⟩ [inHigh])) =
      some ⟨.measureHigh, 5, 0x6#40, 0, 0, 0, .none⟩ := by decide
theorem test_measure_high_threshold :
    nextRegs (step (testState 1 ⟨.measureHigh, 5, 0x6#40, 0, 49, 49, .none⟩ [inLow])) =
      some ⟨.waitHigh, 6, 0xC#40, 0, 0, 0, .none⟩ ∧
    nextRegs (step (testState 1 ⟨.measureHigh, 5, 0x6#40, 0, 50, 50, .none⟩ [inLow])) =
      some ⟨.waitHigh, 6, 0xD#40, 0, 0, 0, .none⟩ := by decide
theorem test_measure_high_at_the_ceiling :
    nextRegs (step (testState 1 ⟨.measureHigh, 5, 0x6#40, 0, 1000, 1000, .none⟩ [inHigh])) =
      some ⟨.failed, 5, 0x6#40, 0, 1000, 1000, .measureHigh⟩ ∧
    nextRegs (step (testState 1 ⟨.measureHigh, 5, 0x6#40, 0, 1000, 1000, .none⟩ [inLow])) =
      some ⟨.waitHigh, 6, 0xD#40, 0, 0, 0, .none⟩ := by decide
theorem test_sym1_last_bit :
    nextRegs (exec (.sym1 50 70) (testState 1 ⟨.measureHigh, 39, 0x19000C8025#40, 0, 69, 69, .none⟩ [inLow])) =
      some doneGood := by decide
theorem test_sym0_last_bit :
    nextRegs (exec (.sym0 50 27) (testState 1 ⟨.measureHigh, 39, 0x19000C8000#40, 0, 26, 26, .none⟩ [inLow])) =
      some doneBad := by decide
theorem test_append_keeps_forty_bits : append 0x7FFFFFFFFF#40 false = 0xFFFFFFFFFE#40 := by decide

/-! ## Section 2.4: the frame decoder (vectors 1, 2, 4, 7, 8, 11) -/

theorem test_assemble : assemble 0x2D071A0351#40 = [0x2D#8, 0x07#8, 0x1A#8, 0x03#8, 0x51#8] := by decide
theorem test_checksum_wraps : checksum 0xFFFFFFFFFC#40 = 252#8 ∧ valid 0xFFFFFFFFFC#40 = true ∧
    t10 0xFFFFFFFFFC#40 = 2805#12 := by decide
theorem test_decode_frames : decodeFrame 0x2D071A0351#40 = .reading 263#12 457#12 ∧
    decodeFrame 0x140C160F45#40 = .reading 235#12 212#12 ∧ decodeFrame 0x320019004A#40 = .checksumMismatch := by decide

/-! ## Section 2.5: the result view and STATUS -/

theorem test_status_reading : doneGood.status = 0x7200#16 ∧ doneGood.tempX10 = 250#12 ∧ doneGood.humX10 = 500#12 ∧
    doneGood.result = .reading 250#12 500#12 := by decide
theorem test_status_mismatch : doneBad.status = 0x7600#16 ∧ doneBad.tempX10 = 0#12 ∧
    doneBad.result = .failure .checksumMismatch := by decide
theorem test_status_timeout : failedMeasure.status = 0x7DD1#16 ∧
    failedMeasure.result = .failure (.timeout .measureHigh (some 17)) := by decide
theorem test_bit_sequence : Regs.bitSequence ⟨.waitHigh, 3, 0x1#40, 0, 0, 0, .none⟩ = [false, false, true] := by decide

/-! ## Scripts and the duties of the host -/

theorem test_script : (Script.andThen (.start .low) (.times (.symbol 1 2) 2)).inputs =
    [inStart, inLow, inHigh, inHigh, inLow, inHigh, inHigh] := by decide
theorem test_early_start_breaks_the_interval : hostKeepsDuties tinyConfig [inReset, inLow, inStart] = false := by decide
/-- R146: a reset of the busy block is permitted to a host that then waits (here the interval is 0 seconds), and a
START before the wait is over is not. -/
theorem test_busy_reset_is_permitted_with_its_wait :
    hostKeepsDuties { tinyConfig with minIntervalS := 0 }
      [inReset, inStart, ⟨true, false, .low⟩, inHigh, inStart] = true := by decide
theorem test_start_before_the_wait_is_over : waitsOutInterruptions tinyConfig 0
    [(freshExchange, ⟨true, false, .low⟩), (Regs.reset, inHigh), (Regs.reset, inStart)] = false := by decide
theorem test_quiet_host_keeps_its_duties : hostKeepsDuties tinyConfig [inReset, inLow, inHigh] = true := by decide

/-! ## Witnesses: states and operands that meet the hypotheses of the statements, clause by clause -/

theorem witness_legal_config_and_reset : ∃ s : State, s.cfg.Wf ∧ s.input.rst = true :=
  ⟨testState 1 doneGood [inReset], by decide⟩
theorem witness_first_step_after_reset : ∃ s : State, s.regs = ⟨.idle, 0, 0#40, 0, 0, 0, .none⟩ ∧ s.input.rst = false :=
  ⟨testState 1 Regs.reset [inLow], by decide⟩
theorem witness_idle : ∃ σ : Regs, σ.st = .idle := ⟨Regs.reset, rfl⟩
theorem witness_decoded_operation : ∃ (s : State) (i : Instr), s.cfg.Wf ∧ decode s.cfg s.opWord = .ok i ∧ i.Wf s.cfg :=
  ⟨testState 1 Regs.reset [inLow], .idle, by decide, rfl, trivial⟩
theorem witness_wellformed_symbols : (Config.default 1).Wf ∧ (Instr.sym0 1 50).Wf (Config.default 1) ∧
    (Instr.sym1 1001 1001).Wf (Config.default 1) := by decide
theorem witness_selected_rows :
    selectRow 1 (testState 1 Regs.reset [inStart]) = some .start ∧
    selectRow 1 (testState 1 Regs.reset [inLow]) = some .nop ∧
    selectRow 1 (testState 1 ⟨.measureHigh, 0, 0#40, 0, 49, 49, .none⟩ [inLow]) = some (.sym0 1 50) ∧
    selectRow 1 (testState 1 ⟨.measureHigh, 0, 0#40, 0, 50, 50, .none⟩ [inLow]) = some (.sym1 1 51) := by decide
theorem witness_decoded_wire : ∃ c w i, decode c w = .ok i ∧ i = .sym1 1 3 :=
  ⟨⟨3, 2, 2, 4, 1, 1⟩, .wire [.low, .high, .high, .high, .low], _, rfl, rfl⟩
theorem witness_holding_states : doneGood.st = .done ∧ failedMeasure.st = .failed ∧ Regs.reset.st = .idle := by decide
theorem witness_busy_step : ∃ s t : State, s.regs.busy = true ∧ s.input.rst = false ∧ step s = .next t ∧
    t.regs.st = .startLow :=
  ⟨testState 1 ⟨.startLow, 0, 0#40, 5, 0, 0, .none⟩ [inStart], _, rfl, rfl, rfl, rfl⟩
theorem witness_start_high_leaves : ∃ s : State, s.regs.st = .startHigh ∧
    s.regs.tmr + 1 = s.cfg.tHighUs * s.cfg.ticksPerUs :=
  ⟨testState 1 ⟨.startHigh, 0, 0#40, 39, 0, 0, .none⟩ [], by decide⟩
theorem witness_await_ack_clauses :
    (∃ s : State, s.regs.st = .awaitAck ∧ s.input.line = .high ∧ s.regs.cnt + 1 > s.cfg.ceiling) ∧
    (∃ s : State, s.regs.st = .awaitAck ∧ s.input.line = .high ∧ s.regs.cnt + 1 = s.cfg.ceiling) ∧
    (∃ s : State, s.regs.st = .awaitAck ∧ s.input.line = .low) :=
  ⟨⟨testState 1 ⟨.awaitAck, 0, 0#40, 0, 1000, 0, .none⟩ [inHigh], by decide⟩,
   ⟨testState 1 ⟨.awaitAck, 0, 0#40, 0, 999, 0, .none⟩ [inHigh], by decide⟩,
   ⟨testState 1 ⟨.awaitAck, 0, 0#40, 0, 1000, 0, .none⟩ [inLow], by decide⟩⟩
theorem witness_wait_high_clauses :
    (∃ s : State, s.regs.st = .waitHigh ∧ s.input.line = .low ∧ s.regs.cnt + 1 > s.cfg.ceiling) ∧
    (∃ s : State, s.regs.st = .waitHigh ∧ s.input.line = .low ∧ s.regs.cnt + 1 = s.cfg.ceiling) ∧
    (∃ s : State, s.regs.st = .waitHigh ∧ s.input.line = .high) :=
  ⟨⟨testState 1 ⟨.waitHigh, 5, 0x6#40, 0, 1000, 0, .none⟩ [inLow], by decide⟩,
   ⟨testState 1 ⟨.waitHigh, 5, 0x6#40, 0, 999, 0, .none⟩ [inLow], by decide⟩,
   ⟨testState 1 ⟨.waitHigh, 5, 0x6#40, 0, 1000, 0, .none⟩ [inHigh], by decide⟩⟩
theorem witness_measure_high_clauses :
    (∃ s : State, s.regs.st = .measureHigh ∧ s.input.line = .high ∧ s.regs.cnt + 1 > s.cfg.ceiling) ∧
    (∃ s : State, s.regs.st = .measureHigh ∧ s.input.line = .high ∧ s.regs.cnt + 1 = s.cfg.ceiling) ∧
    (∃ s : State, s.regs.st = .measureHigh ∧ s.input.line = .low ∧ s.regs.i.val = 38) ∧
    (∃ s : State, s.regs.st = .measureHigh ∧ s.input.line = .low ∧ s.regs.i.val = 39) :=
  ⟨⟨testState 1 ⟨.measureHigh, 5, 0x6#40, 0, 1000, 1000, .none⟩ [inHigh], by decide⟩,
   ⟨testState 1 ⟨.measureHigh, 5, 0x6#40, 0, 999, 999, .none⟩ [inHigh], by decide⟩,
   ⟨testState 1 ⟨.measureHigh, 38, 0x6#40, 0, 26, 26, .none⟩ [inLow], by decide⟩,
   ⟨testState 1 ⟨.measureHigh, 39, 0x6#40, 0, 26, 26, .none⟩ [inLow], by decide⟩⟩
theorem witness_state_graph_step : ∃ s t : State, s.input.rst = false ∧ step s = .next t :=
  ⟨testState 1 doneGood [inLow], _, rfl, rfl⟩
theorem witness_failure_entry : ∃ s t : State, step s = .next t ∧ t.regs.st = .failed ∧ s.regs.st ≠ .failed :=
  ⟨testState 1 ⟨.waitHigh, 5, 0x6#40, 0, 1000, 0, .none⟩ [inLow], _, rfl, rfl, by decide⟩
theorem witness_done_entry : ∃ s t : State, step s = .next t ∧ t.regs.st = .done ∧ s.regs.st ≠ .done :=
  ⟨testState 1 ⟨.measureHigh, 39, 0x19000C8025#40, 0, 69, 69, .none⟩ [inLow], _, rfl, rfl, by decide⟩
theorem witness_frame_and_index_change :
    (∃ s t : State, step s = .next t ∧ t.regs.frame ≠ s.regs.frame ∧ t.regs.i ≠ s.regs.i ∧ s.regs.busy = true) ∧
    (∃ s t : State, step s = .next t ∧ t.regs.frame ≠ s.regs.frame ∧ t.regs.i ≠ s.regs.i ∧ s.regs.busy = false) :=
  ⟨⟨testState 1 ⟨.measureHigh, 5, 0x6#40, 0, 50, 50, .none⟩ [inLow], _, rfl, by decide, by decide, rfl⟩,
   ⟨testState 1 doneGood [inStart], _, rfl, by decide, by decide, rfl⟩⟩
theorem witness_two_holding_states : ∃ (s : State) (r : Regs), s.regs.busy = false ∧ r.busy = false ∧
    s.input.start = true ∧ r ≠ s.regs :=
  ⟨testState 1 failedMeasure [inStart], doneGood, by decide⟩
theorem witness_status_field_clauses : failedMeasure.st = .failed ∧ failedMeasure.fphase = .measureHigh ∧
    doneGood.st ≠ .failed := by decide
theorem witness_reset_in_mid_drive : ∃ s : State, s.cfg.Wf ∧ s.regs.busy = true ∧ s.input.rst = true :=
  ⟨testState 1 ⟨.startLow, 0, 0#40, 100, 0, 0, .none⟩ [inReset], by decide⟩

/-- The invariants on a state in the middle of a frame, on a failed one, and on a complete one. -/
theorem witness_invariants : Inv (Config.default 1) ⟨.measureHigh, 5, 0x6#40, 0, 12, 12, .none⟩ ∧
    Inv (Config.default 1) failedMeasure ∧ Inv (Config.default 1) doneGood := by
  refine ⟨?_, ?_, ?_⟩ <;> constructor <;> decide
theorem witness_safe_step : ∃ s t : State, SafeState s ∧ CountLaw s.cfg s.regs ∧ step s = .next t :=
  ⟨testState 1 ⟨.measureHigh, 5, 0x6#40, 0, 12, 12, .none⟩ [inHigh], _,
   ⟨by decide, witness_invariants.1⟩, ⟨by decide, by decide⟩, rfl⟩
theorem witness_no_partial_data : ∃ σ τ : Regs, σ.res ≠ .reading ∧ σ.st = τ.st ∧ σ.i = τ.i ∧ σ.fphase = τ.fphase ∧
    (σ.st = .done → valid σ.frame = valid τ.frame ∧ (valid σ.frame = true → σ.frame = τ.frame)) ∧ σ ≠ τ :=
  ⟨doneBad, { doneBad with frame := 0x3300190000#40 }, by decide⟩
theorem witness_result_is_held : ∃ (s : State) (n : Nat), s.cfg.Wf ∧ s.regs.busy = false ∧ 0 < n ∧
    ∀ k, k < n → (s.inputAt k).rst = false ∧ (s.inputAt k).start = false :=
  ⟨testState 1 doneGood [inLow, inHigh], 2, by decide⟩
theorem witness_done_clauses : checksum doneGood.frame = byteView doneGood.frame 4 ∧
    checksum doneBad.frame ≠ byteView doneBad.frame 4 := by decide

/-- An exchange of the smallest instance with all its inputs laid down, for the statements about whole exchanges. -/
theorem witness_exchange_inputs : ∃ s : State, s.cfg.Wf ∧ s.regs.busy = false ∧ s.input.start = true ∧
    ∀ k, k < longestExchange s.cfg → (s.inputAt k).rst = false :=
  ⟨tinyState doneGood (inStart :: List.replicate 164 inHigh), by decide, rfl, rfl, fun k hk => by
    have h164 : longestExchange (tinyState doneGood (inStart :: List.replicate 164 inHigh)).cfg = 165 := by decide
    cases k with
    | zero => rfl
    | succ k =>
      simp only [State.inputAt, tinyState, List.getElem?_cons_succ]
      rw [List.getElem?_replicate_of_lt (by omega)]
      rfl⟩
/-- Runs of an exchange of the smallest instance, one for each clause of the waveform; a START is given in the first
poll, where the block is busy and does not accept it. -/
theorem witness_exchange_runs : ∃ s : State, s.cfg.Wf ∧ s.regs.busy = false ∧ s.input.start = true ∧
    (∀ k, k < 4 → (s.inputAt k).rst = false) ∧ (s.inputAt 3).start = true ∧
    (∀ k u, 2 < k → k < 4 → Sys2Proof.core.run k s = .next u → u.regs.busy = true ∨ u.input.start = false) ∧
    s.cfg.tLowTicks = 1 ∧ s.cfg.tHighTicks = 1 ∧
    ∀ n, n ≤ 4 → ∃ t, Sys2Proof.core.run n s = .next t :=
  ⟨tinyState doneGood [inStart, inHigh, inHigh, inStart], by decide, rfl, rfl, by decide, rfl, (fun k u h hk run => by
     obtain rfl : k = 3 := by omega
     cases run
     exact .inl rfl), rfl, rfl,
   fun n _ => ⟨_, core_run_eq n _ (by decide)⟩⟩
theorem witness_wait : ∃ s : State, s.cfg.Wf ∧ s.regs.st = .waitHigh ∧ s.regs.cnt = 0 ∧
    ∀ k, k < s.cfg.ceiling + 1 → (s.inputAt k).rst = false :=
  ⟨tinyState ⟨.waitHigh, 3, 0#40, 0, 0, 0, .none⟩ [inLow, inLow], by decide⟩
theorem witness_await_ack_runs :
    (∃ (s : State) (polls rest : List Input), s.cfg.Wf ∧ s.regs.st = .awaitAck ∧ s.regs.cnt = 0 ∧
      s.inputs = polls ++ rest ∧ (∀ x ∈ polls, x.rst = false) ∧
      polls.map Input.line = List.replicate s.cfg.ceiling .high ++ [.low]) ∧
    (∃ (s : State) (polls rest : List Input), s.cfg.Wf ∧ s.regs.st = .awaitAck ∧ s.regs.cnt = 0 ∧
      s.inputs = polls ++ rest ∧ (∀ x ∈ polls, x.rst = false) ∧
      polls.map Input.line = List.replicate (s.cfg.ceiling + 1) .high) :=
  ⟨⟨tinyState ⟨.awaitAck, 0, 0#40, 0, 0, 0, .none⟩ [inHigh, inLow, inLow], [inHigh, inLow], [inLow], by decide⟩,
   ⟨tinyState ⟨.awaitAck, 0, 0#40, 0, 0, 0, .none⟩ [inHigh, inHigh, inLow], [inHigh, inHigh], [inLow], by decide⟩⟩
theorem witness_long_low_run : ∃ (s : State) (polls rest : List Input), s.cfg.Wf ∧ s.regs.st = .waitHigh ∧
    s.regs.cnt = 0 ∧ s.inputs = polls ++ rest ∧ (∀ x ∈ polls, x.rst = false) ∧
    polls.map Input.line = List.replicate (s.cfg.ceiling + 1) .low :=
  ⟨tinyState ⟨.waitHigh, 3, 0#40, 0, 0, 0, .none⟩ [inLow, inLow, inHigh], [inLow, inLow], [inHigh], by decide⟩
theorem witness_pulse : ∃ (s : State) (p : Pulse) (polls rest : List Input), s.cfg.Wf ∧ s.regs.st = .waitHigh ∧
    s.regs.cnt = 0 ∧ p.Passes s.cfg ∧ s.inputs = polls ++ rest ∧ (∀ x ∈ polls, x.rst = false) ∧
    polls.map Input.line = List.replicate (p.1 - 1) .low ++ List.replicate p.2 .high ++ [.low] :=
  ⟨tinyState ⟨.waitHigh, 3, 0#40, 0, 0, 0, .none⟩ [inLow, inHigh, inHigh, inLow, inHigh], (2, 2),
   [inLow, inHigh, inHigh, inLow], [inHigh], by decide⟩
theorem witness_long_high_run : ∃ (s : State) (lam : Nat) (polls rest : List Input), s.cfg.Wf ∧
    s.regs.st = .waitHigh ∧ s.regs.cnt = 0 ∧ lam ≤ s.cfg.ceiling ∧ s.inputs = polls ++ rest ∧
    (∀ x ∈ polls, x.rst = false) ∧
    polls.map Input.line = List.replicate lam .low ++ List.replicate (s.cfg.ceiling + 2) .high :=
  ⟨tinyState ⟨.waitHigh, 3, 0#40, 0, 0, 0, .none⟩ [inLow, inHigh, inHigh, inHigh, inLow], 1,
   [inLow, inHigh, inHigh, inHigh], [inLow], by decide⟩
theorem witness_whole_exchange :
    ∃ (s : State) (a : Nat) (pulses : List Pulse) (first : Input) (lead polls rest : List Input),
      s.cfg.Wf ∧ s.regs.busy = false ∧ s.inputs = first :: (lead ++ polls ++ rest) ∧
      first.rst = false ∧ first.start = true ∧ lead.length = s.cfg.tLowTicks + s.cfg.tHighTicks ∧
      (∀ x ∈ lead ++ polls, x.rst = false) ∧ a ≤ s.cfg.ceiling ∧ pulses.length = 40 ∧
      (∀ p ∈ pulses, p.Passes s.cfg) ∧
      polls.map Input.line = List.replicate a .high ++ waveform pulses ++ [.low] :=
  ⟨tinyState doneGood (inStart :: ([inHigh, inHigh] ++
      (inHigh :: ((List.replicate 40 [inLow, inHigh]).flatten ++ [inLow])) ++ [inLow])), 1, List.replicate 40 (1, 1),
   inStart, [inHigh, inHigh], inHigh :: ((List.replicate 40 [inLow, inHigh]).flatten ++ [inLow]), [inLow], by decide⟩

end Sys2Proof.Machine
end

section
/-! PROOFS. The outputs of the block as functions of its registers (R18 to R21, R23): what each flag, each line output
and each field of STATUS says about the state, and the obligations O3, O31, O32 and O34 assembled from these facts. -/

namespace Sys2Proof.Machine

/-! ### The flags (R19) -/

theorem Regs.busy_iff (σ : Regs) :
    σ.busy = true ↔ σ.st ∈ [.startLow, .startHigh, .awaitAck, .waitHigh, .measureHigh] := by
  unfold Regs.busy
  cases σ.st <;> decide

theorem Regs.done_iff (σ : Regs) : σ.done = true ↔ σ.st ∈ [.done, .failed] := by
  unfold Regs.done
  cases σ.st <;> decide

/-- Every state but IDLE raises exactly one of the two flags. -/
theorem Regs.busy_eq_not_done {σ : Regs} (h : σ.st ≠ .idle) : σ.busy = !σ.done := by
  unfold Regs.busy Regs.done
  cases hst : σ.st with
  | idle => exact absurd hst h
  | startLow | startHigh | awaitAck | waitHigh | measureHigh | done | failed => rfl

theorem Regs.busy_of_idle {σ : Regs} (h : σ.st = .idle) : σ.busy = false := by
  simp [Regs.busy, h]

theorem Regs.done_of_idle {σ : Regs} (h : σ.st = .idle) : σ.done = false := by
  simp [Regs.done, h]

theorem Regs.not_busy_and_done (σ : Regs) : ¬(σ.busy = true ∧ σ.done = true) := by
  by_cases h : σ.st = .idle
  · simp [busy_of_idle h]
  · simp [busy_eq_not_done h]

theorem Regs.not_busy_not_done_iff (σ : Regs) : σ.busy = false ∧ σ.done = false ↔ σ.st = .idle := by
  by_cases h : σ.st = .idle
  · simp [h, busy_of_idle h, done_of_idle h]
  · simp [h, busy_eq_not_done h]

/-- The result tag with everything it depends on: none before an exchange is over, `timeout` in FAILED, and the
validity of the frame in DONE. -/
theorem Regs.res_cases (σ : Regs) :
    (σ.done = false ∧ σ.st ≠ .done ∧ σ.st ≠ .failed ∧ σ.res = .none) ∨
    (σ.done = true ∧ σ.st = .failed ∧ σ.res = .timeout) ∨
    (σ.done = true ∧ σ.st = .done ∧ valid σ.frame = true ∧ σ.res = .reading) ∨
    (σ.done = true ∧ σ.st = .done ∧ valid σ.frame = false ∧ σ.res = .checksumMismatch) := by
  unfold Regs.done Regs.res
  cases σ.st with
  | idle | startLow | startHigh | awaitAck | waitHigh | measureHigh => simp
  | failed => simp
  | done => cases valid σ.frame <;> simp

theorem Regs.res_eq_none_iff (σ : Regs) : σ.res = .none ↔ σ.done = false := by
  obtain ⟨hd, -, -, hr⟩ | ⟨hd, -, hr⟩ | ⟨hd, -, -, hr⟩ | ⟨hd, -, -, hr⟩ := σ.res_cases <;> simp [hd, hr]

theorem Regs.res_eq_timeout_iff (σ : Regs) : σ.res = .timeout ↔ σ.st = .failed := by
  obtain ⟨-, -, hs, hr⟩ | ⟨-, hs, hr⟩ | ⟨-, hs, -, hr⟩ | ⟨-, hs, -, hr⟩ := σ.res_cases <;> simp [hs, hr]

theorem Regs.res_eq_reading_iff (σ : Regs) : σ.res = .reading ↔ σ.st = .done ∧ valid σ.frame = true := by
  obtain ⟨-, hs, -, hr⟩ | ⟨-, hs, hr⟩ | ⟨-, hs, hv, hr⟩ | ⟨-, hs, hv, hr⟩ := σ.res_cases <;> simp [*]

theorem Regs.res_eq_checksumMismatch_iff (σ : Regs) :
    σ.res = .checksumMismatch ↔ σ.st = .done ∧ valid σ.frame = false := by
  obtain ⟨-, hs, -, hr⟩ | ⟨-, hs, hr⟩ | ⟨-, hs, hv, hr⟩ | ⟨-, hs, hv, hr⟩ := σ.res_cases <;> simp [*]

theorem Regs.res_of_idle {σ : Regs} (h : σ.st = .idle) : σ.res = .none :=
  σ.res_eq_none_iff.2 (done_of_idle h)

/-- Settles O31: each flag by its own characterisation, and the exclusions by the case IDLE or not. -/
theorem flagsOfTheState : Obligations.FlagsOfTheState := fun σ =>
  ⟨σ.busy_iff, σ.done_iff, σ.res_eq_none_iff, σ.res_eq_timeout_iff, σ.res_eq_reading_iff,
    σ.res_eq_checksumMismatch_iff, σ.not_busy_and_done, σ.not_busy_not_done_iff⟩

/-! ### The line outputs (R18, R33) -/

theorem Regs.lineOe_iff (σ : Regs) : σ.lineOe = true ↔ σ.st = .startLow ∨ σ.st = .startHigh := by
  unfold Regs.lineOe
  cases σ.st <;> decide

theorem Regs.lineOut_eq_low_iff (σ : Regs) : σ.lineOut = .low ↔ σ.st = .startLow := by
  unfold Regs.lineOut
  split <;> simp [*]

theorem Regs.lineOut_eq_high_iff (σ : Regs) : σ.lineOut = .high ↔ σ.st ≠ .startLow := by
  unfold Regs.lineOut
  split <;> simp [*]

theorem Regs.lineDrive_eq_some_iff (σ : Regs) (l : Level) :
    σ.lineDrive = some l ↔ σ.lineOe = true ∧ σ.lineOut = l := by
  unfold Regs.lineDrive
  split <;> simp [*]

theorem Regs.lineDrive_eq_low_iff (σ : Regs) : σ.lineDrive = some .low ↔ σ.st = .startLow := by
  rw [lineDrive_eq_some_iff, lineOe_iff, lineOut_eq_low_iff]
  exact ⟨And.right, fun h => ⟨.inl h, h⟩⟩

theorem Regs.lineDrive_eq_high_iff (σ : Regs) : σ.lineDrive = some .high ↔ σ.st = .startHigh := by
  rw [lineDrive_eq_some_iff, lineOe_iff, lineOut_eq_high_iff]
  exact ⟨fun ⟨drives, notLow⟩ => drives.resolve_left notLow, fun h => ⟨.inr h, by simp [h]⟩⟩

/-- Settles O34: a driven level is `line_oe` together with `line_out`, and each of these is a set of states. -/
theorem lineIsDrivenOnlyInTheStartSequence : Obligations.LineIsDrivenOnlyInTheStartSequence := fun σ =>
  ⟨σ.lineOe_iff, σ.lineOut_eq_low_iff, σ.lineDrive_eq_low_iff, σ.lineDrive_eq_high_iff⟩

/-! ### The fields of STATUS (R20) -/

/-! The slices of the layout: skip the fields below, then the slice is the lowest field left. -/

section PackStatus
variable (busy done : Bool) (st : BitVec 3) (res phase : BitVec 2) (idxValid : Bool) (idx : BitVec 6)

theorem packStatus_busy :
    (packStatus busy done st res phase idxValid idx).extractLsb' 15 1 = BitVec.ofBool busy := by
  unfold packStatus
  iterate 5 rw [BitVec.extractLsb'_append_eq_of_le (by decide)]
  exact BitVec.extractLsb'_append_eq_left

theorem packStatus_done :
    (packStatus busy done st res phase idxValid idx).extractLsb' 14 1 = BitVec.ofBool done := by
  unfold packStatus
  iterate 5 rw [BitVec.extractLsb'_append_eq_of_le (by decide)]
  exact BitVec.extractLsb'_append_eq_right

theorem packStatus_st :
    (packStatus busy done st res phase idxValid idx).extractLsb' 11 3 = st := by
  unfold packStatus
  iterate 4 rw [BitVec.extractLsb'_append_eq_of_le (by decide)]
  exact BitVec.extractLsb'_append_eq_right

theorem packStatus_res :
    (packStatus busy done st res phase idxValid idx).extractLsb' 9 2 = res := by
  unfold packStatus
  iterate 3 rw [BitVec.extractLsb'_append_eq_of_le (by decide)]
  exact BitVec.extractLsb'_append_eq_right

theorem packStatus_phase :
    (packStatus busy done st res phase idxValid idx).extractLsb' 7 2 = phase := by
  unfold packStatus
  iterate 2 rw [BitVec.extractLsb'_append_eq_of_le (by decide)]
  exact BitVec.extractLsb'_append_eq_right

theorem packStatus_idxValid :
    (packStatus busy done st res phase idxValid idx).extractLsb' 6 1 = BitVec.ofBool idxValid := by
  unfold packStatus
  rw [BitVec.extractLsb'_append_eq_of_le (by decide)]
  exact BitVec.extractLsb'_append_eq_right

theorem packStatus_idx :
    (packStatus busy done st res phase idxValid idx).extractLsb' 0 6 = idx :=
  BitVec.extractLsb'_append_eq_right

end PackStatus

theorem Regs.phaseField_of_failed {σ : Regs} (h : σ.st = .failed) : σ.phaseField = phaseCode σ.fphase := if_pos h

theorem Regs.phaseField_of_ne_failed {σ : Regs} (h : σ.st ≠ .failed) : σ.phaseField = 0#2 := if_neg h

theorem Regs.idxValid_iff (σ : Regs) :
    σ.idxValid = true ↔ σ.st = .failed ∧ (σ.fphase = .waitHigh ∨ σ.fphase = .measureHigh) := by
  unfold Regs.idxValid
  cases σ.st with
  | idle | startLow | startHigh | awaitAck | waitHigh | measureHigh | done => simp
  | failed => cases σ.fphase <;> simp

/-- The index of a failed bit wait is shown whole: six bits hold every index. -/
theorem Regs.idxField_toNat_of_idxValid {σ : Regs} (h : σ.idxValid = true) : σ.idxField.toNat = σ.i.val := by
  have fits : σ.i.val < 2 ^ 6 := by omega
  rw [Regs.idxField, if_pos h, BitVec.toNat_ofNat, Nat.mod_eq_of_lt fits]

theorem Regs.idxField_of_not_idxValid {σ : Regs} (h : σ.idxValid = false) : σ.idxField = 0#6 := by
  simp [Regs.idxField, h]

/-- Settles O32: every slice of the layout is its field, and each field is its function of the state. -/
theorem statusFields : Obligations.StatusFields := by
  intro σ
  have phase : σ.status.extractLsb' 7 2 = σ.phaseField := packStatus_phase ..
  have idxValid : σ.status.extractLsb' 6 1 = BitVec.ofBool σ.idxValid := packStatus_idxValid ..
  have idx : σ.status.extractLsb' 0 6 = σ.idxField := packStatus_idx ..
  rw [phase, idxValid, idx]
  refine ⟨packStatus_busy .., packStatus_done .., packStatus_st .., packStatus_res ..,
    Regs.phaseField_of_failed, Regs.phaseField_of_ne_failed, fun bitWait => ?_, fun noBitWait => ?_⟩
  · have shown : σ.idxValid = true := σ.idxValid_iff.2 bitWait
    exact ⟨congrArg BitVec.ofBool shown, Regs.idxField_toNat_of_idxValid shown⟩
  · have hidden : σ.idxValid = false := Bool.eq_false_iff.2 fun shown => noBitWait (σ.idxValid_iff.1 shown)
    exact ⟨congrArg BitVec.ofBool hidden, Regs.idxField_of_not_idxValid hidden⟩

/-! ### The values of reset (R23) -/

theorem Regs.tempX10_of_no_reading {σ : Regs} (h : σ.res ≠ .reading) : σ.tempX10 = 0#12 := if_neg h

theorem Regs.humX10_of_no_reading {σ : Regs} (h : σ.res ≠ .reading) : σ.humX10 = 0#12 := if_neg h

theorem Regs.status_of_idle {σ : Regs} (h : σ.st = .idle) : σ.status = 0x0000#16 := by
  have hidden : σ.idxValid = false := by simp [Regs.idxValid, h]
  rw [Regs.status, busy_of_idle h, done_of_idle h, res_of_idle h, phaseField_of_ne_failed (by simp [h]), hidden,
    idxField_of_not_idxValid hidden, h]
  decide

theorem Regs.outputs_of_idle {σ : Regs} (h : σ.st = .idle) :
    σ.outputs = ⟨false, .high, 0x0000#16, 0#12, 0#12⟩ := by
  have released : σ.lineOe = false := by simp [Regs.lineOe, St.isDriving, h]
  have high : σ.lineOut = .high := σ.lineOut_eq_high_iff.2 (by simp [h])
  have noReading : σ.res ≠ .reading := by simp [res_of_idle h]
  rw [Regs.outputs, released, high, status_of_idle h, tempX10_of_no_reading noReading, humX10_of_no_reading noReading]

theorem step_of_rst {s : State} (legal : s.cfg.Wf) (rst : s.input.rst = true) :
    step s = .next (s.setRegs Regs.reset).advance := by
  rw [step_eq_blockStep legal, blockStep, if_pos rst]

/-- Settles O3: a step under `rst` writes the reset registers, and in IDLE every output is constant. -/
theorem resetValuesAndOutputs : Obligations.ResetValuesAndOutputs := by
  refine ⟨rfl, fun s legal rst => ⟨_, step_of_rst legal rst, rfl⟩, fun σ idle => ?_⟩
  exact ⟨Regs.outputs_of_idle idle, Regs.busy_of_idle idle, Regs.done_of_idle idle, Regs.res_of_idle idle⟩

end Sys2Proof.Machine
end

section
/-! PROOFS. Exchange control (R70 to R74): what START and NOP do in a holding state, how a step depends on its input,
what a busy state can go on to, and the obligations O4, O13, O14 and O15 assembled from these facts. -/

namespace Sys2Proof.Machine

/-! ### The dispatch (R70) -/

/-- Settles O4: the transition of R70 makes the step, and in each state its dispatch is the arm of that state. -/
theorem stepIsTheDispatch : Obligations.StepIsTheDispatch := by
  intro s legal
  rw [step_eq_blockStep legal, blockStep, stateStep]
  cases s.regs.st <;> rfl

/-! ### The host commands in a holding state (R72, R73) -/

theorem St.isHolding_iff (st : St) : st.isHolding = true ↔ st = .idle ∨ st = .done ∨ st = .failed := by
  cases st <;> decide

theorem Regs.lineDrive_of_holding {σ : Regs} (holding : σ.st.isHolding = true) : σ.lineDrive = none := by
  have released : σ.lineOe = false := by
    unfold Regs.lineOe St.isDriving
    obtain st | st | st := σ.st.isHolding_iff.1 holding <;> simp [st]
  simp [Regs.lineDrive, released]

theorem exec_start_of_holding {s : State} (holding : s.regs.st.isHolding = true) :
    exec .start s = .next (s.setRegs (startExchange s.regs)) := by
  simp [exec, execStart, holding]

theorem exec_nop_of_holding {s : State} (holding : s.regs.st.isHolding = true) : exec .nop s = .next s := by
  simp [exec, execNop, holding]

/-- The ports of an exchange that has just begun, whatever was there before it. -/
theorem startExchange_outputs (σ : Regs) :
    (startExchange σ).outputs = ⟨true, .low, 0x8800#16, 0#12, 0#12⟩ := by
  rw [startExchange_eq]
  decide

/-- Settles O13: a holding state releases the line, and what START leaves is the same from every one of them. -/
theorem startBeginsAnExchange : Obligations.StartBeginsAnExchange := by
  intro s st
  have holding : s.regs.st.isHolding = true := s.regs.st.isHolding_iff.2 st
  exact ⟨Regs.lineDrive_of_holding holding, _, exec_start_of_holding holding, rfl, startExchange_outputs s.regs,
    rfl, rfl, rfl⟩

/-- Settles O14: in a holding state NOP writes the registers it finds. -/
theorem nopHoldsTheState : Obligations.NopHoldsTheState := fun s st =>
  exec_nop_of_holding (s.regs.st.isHolding_iff.2 st)

/-! ### How a step depends on its input -/

/-- Inputs of this step that make the same transition make the same step: the tick uses either one up. -/
theorem step_congr_input (s : State) {x y : Input} (xs : List Input)
    (same : blockStep s.cfg s.regs x = blockStep s.cfg s.regs y) :
    step { s with inputs := x :: xs } = step { s with inputs := y :: xs } := by
  by_cases legal : s.cfg.Wf
  · rw [step_eq_blockStep (s := { s with inputs := x :: xs }) legal,
      step_eq_blockStep (s := { s with inputs := y :: xs }) legal,
      State.input_of_inputs_cons (x := x) rfl, State.input_of_inputs_cons (x := y) rfl, same]
    rfl
  · simp [step, legal]

/-- While an exchange is under way the input `start` has no effect on the transition (R74). -/
theorem blockStep_start_of_busy (c : Config) {σ : Regs} (busy : σ.busy = true) (x : Input) (a b : Bool) :
    blockStep c σ { x with start := a } = blockStep c σ { x with start := b } := by
  have working : σ.st.isHolding = false := by simpa [busy_eq_not_holding] using busy
  simp only [blockStep, stateStep_busy working a b]

/-! ### What a busy state goes on to (R75) -/

theorem startLow_cases (c : Config) (σ : Regs) :
    (σ.tmr + 1 = c.tLowTicks ∧ startLow c σ = { σ with st := .startHigh, tmr := 0 }) ∨
    (σ.tmr + 1 ≠ c.tLowTicks ∧ startLow c σ = { σ with tmr := σ.tmr + 1 }) := by
  unfold startLow
  split
  · exact .inl ⟨‹_›, rfl⟩
  · exact .inr ⟨‹_›, rfl⟩

theorem startHigh_cases (c : Config) (σ : Regs) :
    (σ.tmr + 1 = c.tHighTicks ∧ startHigh c σ = { σ with st := .awaitAck, tmr := 0, cnt := 0 }) ∨
    (σ.tmr + 1 ≠ c.tHighTicks ∧ startHigh c σ = { σ with tmr := σ.tmr + 1 }) := by
  unfold startHigh
  split
  · exact .inl ⟨‹_›, rfl⟩
  · exact .inr ⟨‹_›, rfl⟩

/-- A poll that finds the old level fails or stays where the wait is. -/
theorem boundedWait_st (c : Config) (σ : Regs) (p : Phase) (stay : Regs) :
    (boundedWait c σ p stay).st = .failed ∨ (boundedWait c σ p stay).st = stay.st := by
  obtain ⟨-, fails⟩ | ⟨-, stays⟩ := boundedWait_cases c σ p stay
  · exact .inl (by rw [fails, raiseTimeout_st])
  · exact .inr (by rw [stays])

theorem appendBit_st (σ : Regs) (b : Bool) : (appendBit σ b).st = .done ∨ (appendBit σ b).st = .waitHigh := by
  obtain ⟨-, last⟩ | ⟨-, more⟩ := appendBit_cases σ b
  · exact .inl (by rw [last])
  · exact .inr (by rw [more])

theorem startHigh_st (c : Config) {σ : Regs} (st : σ.st = .startHigh) :
    (startHigh c σ).st = .startHigh ∨ (startHigh c σ).st = .awaitAck := by
  obtain ⟨-, leaves⟩ | ⟨-, stays⟩ := startHigh_cases c σ
  · exact .inr (by rw [leaves])
  · exact .inl (by rw [stays, ← st])

theorem awaitAck_st (c : Config) {σ : Regs} (st : σ.st = .awaitAck) (line : Level) :
    (awaitAck c σ line).st = .failed ∨ (awaitAck c σ line).st = .awaitAck ∨ (awaitAck c σ line).st = .waitHigh := by
  cases line with
  | high => exact (boundedWait_st ..).imp_right fun stays => .inl (stays.trans st)
  | low => exact .inr (.inr rfl)

theorem waitHigh_st (c : Config) {σ : Regs} (st : σ.st = .waitHigh) (line : Level) :
    (waitHigh c σ line).st = .failed ∨ (waitHigh c σ line).st = .waitHigh ∨
      (waitHigh c σ line).st = .measureHigh := by
  cases line with
  | high => exact .inr (.inr rfl)
  | low => exact (boundedWait_st ..).imp_right fun stays => .inl (stays.trans st)

theorem measureHigh_st (c : Config) {σ : Regs} (st : σ.st = .measureHigh) (line : Level) :
    (measureHigh c σ line).st = .failed ∨ (measureHigh c σ line).st = .measureHigh ∨
      (measureHigh c σ line).st = .done ∨ (measureHigh c σ line).st = .waitHigh := by
  cases line with
  | high => exact (boundedWait_st ..).imp_right fun stays => .inl (stays.trans st)
  | low => exact .inr (.inr (appendBit_st ..))

/-- An exchange under way neither falls back to IDLE nor begins anew: START_LOW is only ever where it still is, one
tick further. -/
theorem blockStep_not_restarted_of_busy {c : Config} {σ : Regs} {x : Input} (busy : σ.busy = true) (noReset : x.rst = false) :
    (blockStep c σ x).st ≠ .idle ∧
      ((blockStep c σ x).st = .startLow → σ.st = .startLow ∧ (blockStep c σ x).tmr = σ.tmr + 1) := by
  have working : ¬ σ.st.isHolding = true := by simpa [busy_eq_not_holding] using busy
  obtain ⟨reset, -⟩ | ⟨-, holding, -⟩ | ⟨-, holding, -⟩ | ⟨-, st, eq⟩ | ⟨-, st, eq⟩ | ⟨-, st, eq⟩ | ⟨-, st, eq⟩ |
    ⟨-, st, eq⟩ := blockStep_cases c σ x
  · simp [noReset] at reset
  · exact absurd holding working
  · exact absurd holding working
  · obtain ⟨-, leaves⟩ | ⟨-, stays⟩ := startLow_cases c σ
    · simp [eq, leaves]
    · simp [eq, stays, st]
  · obtain goes | goes := startHigh_st c st <;> simp [eq, goes]
  · obtain goes | goes | goes := awaitAck_st c st x.line <;> simp [eq, goes]
  · obtain goes | goes | goes := waitHigh_st c st x.line <;> simp [eq, goes]
  · obtain goes | goes | goes | goes := measureHigh_st c st x.line <;> simp [eq, goes]

/-- Settles O15: a busy state makes the same transition for either value of `start`, and that transition goes on with
the exchange. -/
theorem startWhileBusyIsIgnored : Obligations.StartWhileBusyIsIgnored := by
  refine ⟨fun s x xs busy => step_congr_input s xs (blockStep_start_of_busy s.cfg busy x true false),
    fun s t busy noReset stepped => ?_⟩
  obtain ⟨-, rfl⟩ := step_next stepped
  exact blockStep_not_restarted_of_busy busy noReset

end Sys2Proof.Machine
end

section
/-! PROOFS. The start sequence (R80, R81): what one tick of START_LOW and of START_HIGH leaves, that the exchange stays
under way, and the obligations O17 and O18 assembled from these facts. -/

namespace Sys2Proof.Machine

theorem exec_startLow (s : State) : exec .startLow s = .next (s.setRegs (startLow s.cfg s.regs)) := rfl

theorem exec_startHigh (s : State) : exec .startHigh s = .next (s.setRegs (startHigh s.cfg s.regs)) := rfl

theorem startLow_st (c : Config) {σ : Regs} (st : σ.st = .startLow) :
    (startLow c σ).st = .startLow ∨ (startLow c σ).st = .startHigh := by
  obtain ⟨-, leaves⟩ | ⟨-, stays⟩ := startLow_cases c σ
  · exact .inr (by rw [leaves])
  · exact .inl (by rw [stays, ← st])

theorem startLow_busy (c : Config) {σ : Regs} (st : σ.st = .startLow) : (startLow c σ).busy = true := by
  obtain goes | goes := startLow_st c st <;> simp [Regs.busy_iff, goes]

theorem startHigh_busy (c : Config) {σ : Regs} (st : σ.st = .startHigh) : (startHigh c σ).busy = true := by
  obtain goes | goes := startHigh_st c st <;> simp [Regs.busy_iff, goes]

theorem Regs.lineDrive_eq_none_iff (σ : Regs) : σ.lineDrive = none ↔ σ.st ≠ .startLow ∧ σ.st ≠ .startHigh := by
  have released : σ.lineDrive = none ↔ ¬ σ.lineOe = true := by simp [lineDrive]
  rw [released, lineOe_iff, not_or]

/-- At its last tick START_HIGH goes to AWAIT_ACK, which leaves the line to the sensor. -/
theorem startHigh_releases {c : Config} {σ : Regs} (last : σ.tmr + 1 = c.tHighTicks) :
    (startHigh c σ).lineDrive = none := by
  obtain ⟨-, leaves⟩ | ⟨more, -⟩ := startHigh_cases c σ
  · rw [leaves, Regs.lineDrive_eq_none_iff]
    exact ⟨nofun, nofun⟩
  · exact absurd last more

/-- Settles O17: the operation writes `startLow`, and a tick that begins in START_LOW ends in START_LOW or START_HIGH. -/
theorem startLowOperation : Obligations.StartLowOperation := by
  refine fun s => ⟨exec_startLow s, fun st => ⟨s.regs.lineDrive_eq_low_iff.2 st, ?_, fun t ran => ?_⟩⟩
  · simp [Regs.busy_iff, st]
  · cases (exec_startLow s).symm.trans ran
    exact startLow_busy s.cfg st

/-- Settles O18: the operation writes `startHigh`, which releases the line at its last tick, and a tick that begins in
START_HIGH ends in START_HIGH or AWAIT_ACK. -/
theorem startHighOperation : Obligations.StartHighOperation := by
  refine fun s => ⟨⟨_, exec_startHigh s, rfl, startHigh_releases⟩,
    fun st => ⟨s.regs.lineDrive_eq_high_iff.2 st, ?_, fun t ran => ?_⟩⟩
  · simp [Regs.busy_iff, st]
  · cases (exec_startHigh s).symm.trans ran
    exact startHigh_busy s.cfg st

end Sys2Proof.Machine
end

section
/-! PROOFS. The bit sampler (R85 to R89): CLASSIFY as a comparison of exact times, what one poll of each wait leaves
and shows, and the obligations O38, O19, O20 and O21 assembled from these facts. -/

namespace Sys2Proof.Machine

/-! ### CLASSIFY (R89) -/

/-- CLASSIFY with the threshold written out from the parameters. -/
theorem classify_eq (c : Config) (d : Nat) : classify c d = decide (c.threshUs * c.ticksPerUs < d) := rfl

theorem classify_eq_true_iff (c : Config) (d : Nat) : classify c d = true ↔ c.threshUs * c.ticksPerUs < d := by
  rw [classify_eq, decide_eq_true_eq]

/-- At a tick rate that is not zero a time in microseconds is exceeded when its number of ticks is (R6). -/
theorem lt_ticksToMicros_iff {c : Config} (rate : 1 ≤ c.ticksPerUs) (us d : Nat) :
    (us : ℚ) < ticksToMicros c d ↔ us * c.ticksPerUs < d := by
  have positive : (0 : ℚ) < c.ticksPerUs := by exact_mod_cast rate
  rw [ticksToMicros, lt_div_iff₀ positive]
  exact_mod_cast Iff.rfl

/-- Settles O38: the comparison of ticks is the comparison of exact microseconds, and the second clause is its
negation. -/
theorem classifyIsTheExactThreshold : Obligations.ClassifyIsTheExactThreshold := by
  intro c d rate
  have one : classify c d = true ↔ (c.threshUs : ℚ) < ticksToMicros c d := by
    rw [classify_eq_true_iff, lt_ticksToMicros_iff rate]
  have zero : classify c d = false ↔ ticksToMicros c d ≤ (c.threshUs : ℚ) := by
    rw [← Bool.not_eq_true, one, not_lt]
  have boundary : classify c (c.threshUs * c.ticksPerUs) = false := by simp [classify_eq]
  exact ⟨one, zero, boundary, (classify_eq_true_iff ..).2 (Nat.lt_succ_self _)⟩

/-! ### What the ports show during a wait and after it (R18, R19) -/

theorem Regs.ports_of_polling (σ : Regs) : σ.st.isPolling = true → σ.lineDrive = none ∧ σ.busy = true := by
  rw [σ.lineDrive_eq_none_iff, σ.busy_iff]
  cases σ.st <;> decide

theorem Regs.flags_of_failed {σ : Regs} (st : σ.st = .failed) :
    σ.busy = false ∧ σ.done = true ∧ σ.res = .timeout := by
  simp [Regs.busy, Regs.done, Regs.res, st]

theorem Regs.flags_of_done {σ : Regs} (st : σ.st = .done) :
    σ.busy = false ∧ σ.done = true ∧ σ.res = if valid σ.frame then .reading else .checksumMismatch := by
  simp [Regs.busy, Regs.done, Regs.res, st]

/-! ### One poll of each wait (R85 to R88) -/

theorem exec_awaitAck (s : State) : exec .awaitAck s = .next (s.setRegs (awaitAck s.cfg s.regs s.input.line)) := rfl

theorem exec_waitHigh (s : State) : exec .waitHigh s = .next (s.setRegs (waitHigh s.cfg s.regs s.input.line)) := rfl

theorem exec_measureHigh (s : State) :
    exec .measureHigh s = .next (s.setRegs (measureHigh s.cfg s.regs s.input.line)) := rfl

theorem boundedWait_of_gt {c : Config} {σ : Regs} (past : σ.cnt + 1 > c.ceiling) (p : Phase) (stay : Regs) :
    boundedWait c σ p stay = { σ with st := .failed, fphase := p } := if_pos past

theorem boundedWait_of_le {c : Config} {σ : Regs} (within : σ.cnt + 1 ≤ c.ceiling) (p : Phase) (stay : Regs) :
    boundedWait c σ p stay = stay := if_neg (Nat.not_lt.2 within)

theorem appendBit_of_ne_last {σ : Regs} (more : σ.i ≠ 39) (b : Bool) :
    appendBit σ b = { σ with st := .waitHigh, i := σ.i + 1, frame := append σ.frame b, cnt := 0, dur := 0 } :=
  if_neg more

theorem appendBit_of_last {σ : Regs} (last : σ.i = 39) (b : Bool) :
    appendBit σ b = { σ with st := .done, frame := append σ.frame b, cnt := 0, dur := 0 } :=
  if_pos last

theorem awaitAck_busy (c : Config) {σ : Regs} (st : σ.st = .awaitAck) (line : Level)
    (notFailed : (awaitAck c σ line).st ≠ .failed) : (awaitAck c σ line).busy = true := by
  obtain stays | goes := (awaitAck_st c st line).resolve_left notFailed
  · simp [Regs.busy, stays]
  · simp [Regs.busy, goes]

theorem waitHigh_busy (c : Config) {σ : Regs} (st : σ.st = .waitHigh) (line : Level)
    (notFailed : (waitHigh c σ line).st ≠ .failed) : (waitHigh c σ line).busy = true := by
  obtain stays | goes := (waitHigh_st c st line).resolve_left notFailed
  · simp [Regs.busy, stays]
  · simp [Regs.busy, goes]

theorem measureHigh_busy (c : Config) {σ : Regs} (st : σ.st = .measureHigh) (line : Level)
    (notFailed : (measureHigh c σ line).st ≠ .failed) (notDone : (measureHigh c σ line).st ≠ .done) :
    (measureHigh c σ line).busy = true := by
  obtain stays | ends | goes := (measureHigh_st c st line).resolve_left notFailed
  · simp [Regs.busy, stays]
  · exact absurd ends notDone
  · simp [Regs.busy, goes]

/-! ### The three state operations -/

/-- Settles O19: a High poll is a bounded wait, a Low poll leaves, and only a failure ends the exchange. -/
theorem awaitAckOperation : Obligations.AwaitAckOperation := by
  intro s
  rw [exec_awaitAck]
  refine ⟨fun high past => ?_, fun high within => ?_, fun low => ?_, fun st => ?_⟩
  · rw [high, awaitAck, boundedWait_of_gt past]
  · rw [high, awaitAck, boundedWait_of_le within]
  · rw [low, awaitAck]
  · obtain ⟨released, busy⟩ := s.regs.ports_of_polling (by rw [st]; rfl)
    refine ⟨released, busy, fun t ran => ?_⟩
    cases ran
    exact ⟨Regs.flags_of_failed, awaitAck_busy s.cfg st s.input.line⟩

/-- Settles O20: a Low poll is a bounded wait, a High poll leaves, and only a failure ends the exchange. -/
theorem waitHighOperation : Obligations.WaitHighOperation := by
  intro s
  rw [exec_waitHigh]
  refine ⟨fun low past => ?_, fun low within => ?_, fun high => ?_, fun st => ?_⟩
  · rw [low, waitHigh, boundedWait_of_gt past]
  · rw [low, waitHigh, boundedWait_of_le within]
  · rw [high, waitHigh]
  · obtain ⟨released, busy⟩ := s.regs.ports_of_polling (by rw [st]; rfl)
    refine ⟨released, busy, fun t ran => ?_⟩
    cases ran
    exact ⟨Regs.flags_of_failed, waitHigh_busy s.cfg st s.input.line⟩

/-- Settles O21: a High poll is a bounded wait, a Low poll appends the classified bit, and only a failure or the last
bit ends the exchange. -/
theorem measureHighOperation : Obligations.MeasureHighOperation := by
  intro s
  rw [exec_measureHigh]
  refine ⟨fun high past => ?_, fun high within => ?_, fun low more => ?_, fun low last => ?_, fun st => ?_⟩
  · rw [high, measureHigh, boundedWait_of_gt past]
  · rw [high, measureHigh, boundedWait_of_le within]
  · have notLast : s.regs.i ≠ 39 := fun last => by simp [last] at more
    rw [low, measureHigh, appendBit_of_ne_last notLast, classify_eq, Regs.measuredDuration]
    exact ⟨_, rfl, index_succ notLast, rfl⟩
  · rw [low, measureHigh, appendBit_of_last (Fin.ext last), classify_eq, Regs.measuredDuration]
  · obtain ⟨released, busy⟩ := s.regs.ports_of_polling (by rw [st]; rfl)
    refine ⟨released, busy, fun t ran => ?_⟩
    cases ran
    exact ⟨Regs.flags_of_failed, Regs.flags_of_done, measureHigh_busy s.cfg st s.input.line⟩

end Sys2Proof.Machine
end

section
/-! PROOFS. The frame decoder (R95 to R99): a frame and its five bytes, the checksum as a sum of bytes, and what DECODE
and the ports in DONE make of a frame, with the obligations O40, O41 and O44 assembled from these facts. -/

namespace Sys2Proof.Machine

/-! ### ASSEMBLE (R35, R95) -/

/-- Four cuts, each taking the lowest byte off the slice that is left: `F[39:0]` shrinks to `F[39:32]`. -/
theorem frame_eq_byteView_append (F : Frame) :
    F = byteView F 0 ++ byteView F 1 ++ byteView F 2 ++ byteView F 3 ++ byteView F 4 := by
  have join (start len : Nat) :
      F.extractLsb' (start + 8) len ++ F.extractLsb' start 8 = F.extractLsb' start (len + 8) :=
    BitVec.extractLsb'_append_extractLsb'_eq_extractLsb' rfl
  calc F
    _ = F.extractLsb' 0 40 := BitVec.extractLsb'_eq_self.symm
    _ = F.extractLsb' 8 32 ++ F.extractLsb' 0 8 := (join 0 32).symm
    _ = F.extractLsb' 16 24 ++ F.extractLsb' 8 8 ++ F.extractLsb' 0 8 :=
        congrArg (· ++ F.extractLsb' 0 8) (join 8 24).symm
    _ = F.extractLsb' 24 16 ++ F.extractLsb' 16 8 ++ F.extractLsb' 8 8 ++ F.extractLsb' 0 8 :=
        congrArg (· ++ F.extractLsb' 8 8 ++ F.extractLsb' 0 8) (join 16 16).symm
    _ = byteView F 0 ++ byteView F 1 ++ byteView F 2 ++ byteView F 3 ++ byteView F 4 :=
        congrArg (· ++ F.extractLsb' 16 8 ++ F.extractLsb' 8 8 ++ F.extractLsb' 0 8) (join 24 8).symm

theorem byteView_getLsbD (F : Frame) (j : Fin 5) {k : Nat} (inByte : k < 8) :
    (byteView F j).getLsbD k = F.getLsbD (32 - 8 * j.val + k) := by
  simp [byteView, inByte]

/-- Bit `m` of byte `j`, most significant first, is bit `8 * j + m` by arrival. -/
theorem byteView_getLsbD_eq_seqBit (F : Frame) (j : Fin 5) (m : Fin 8) (h : 8 * j.val + m.val < 40) :
    (byteView F j).getLsbD (7 - m.val) = seqBit F ⟨8 * j.val + m.val, h⟩ := by
  have place : 32 - 8 * j.val + (7 - m.val) = 39 - (8 * j.val + m.val) := by omega
  rw [byteView_getLsbD F j (by omega), place, seqBit]

/-- Settles O40: the slices are adjacent and cover the frame, and each bit of a slice is one bit by arrival. -/
theorem bytesAreBigEndian : Obligations.BytesAreBigEndian := fun F =>
  ⟨frame_eq_byteView_append F, rfl, byteView_getLsbD_eq_seqBit F⟩

/-! ### CHECKSUM and VALIDATE (R96, R97) -/

theorem checksum_toNat (F : Frame) : (checksum F).toNat =
    ((byteView F 0).toNat + (byteView F 1).toNat + (byteView F 2).toNat + (byteView F 3).toNat) % 256 :=
  Nat.mod_mod ..

/-- Dropping the carry of each addition commutes with the one reduction of R96. -/
theorem checksum_eq_add (F : Frame) :
    checksum F = byteView F 0 + byteView F 1 + byteView F 2 + byteView F 3 := by
  apply BitVec.eq_of_toNat_eq
  rw [checksum_toNat]
  simp only [BitVec.toNat_add, Nat.reducePow, Nat.mod_add_mod]

theorem valid_iff (F : Frame) : valid F = true ↔ checksum F = byteView F 4 := beq_iff_eq

/-- Settles O41: the checksum is the reduced sum by definition, and the 8-bit additions have that value. -/
theorem checksumIsTheByteSum : Obligations.ChecksumIsTheByteSum := fun F =>
  ⟨checksum_toNat F, checksum_eq_add F⟩

/-! ### DECODE and the ports in DONE (R99, R105) -/

theorem decodeFrame_of_valid {F : Frame} (ok : valid F = true) : decodeFrame F = .reading (t10 F) (h10 F) := if_pos ok

theorem decodeFrame_of_not_valid {F : Frame} (bad : ¬ valid F = true) : decodeFrame F = .checksumMismatch := if_neg bad

theorem Regs.tempX10_of_reading {σ : Regs} (h : σ.res = .reading) : σ.tempX10 = t10 σ.frame := if_pos h

theorem Regs.humX10_of_reading {σ : Regs} (h : σ.res = .reading) : σ.humX10 = h10 σ.frame := if_pos h

/-- In DONE only the result tag of STATUS is open. -/
theorem Regs.status_of_done {σ : Regs} (st : σ.st = .done) :
    σ.status = packStatus false true (stCode .done) (resCode σ.res) 0#2 false 0#6 := by
  obtain ⟨notBusy, done, -⟩ := flags_of_done st
  have hidden : σ.idxValid = false := by simp [Regs.idxValid, st]
  rw [Regs.status, notBusy, done, phaseField_of_ne_failed (by simp [st]), hidden, idxField_of_not_idxValid hidden, st]

/-- Settles O44: validity decides the outcome of DECODE and the result tag, and the ports follow the tag. -/
theorem doneShowsTheDecodedFrame : Obligations.DoneShowsTheDecodedFrame := by
  intro σ st
  rw [Regs.status_of_done st]
  constructor
  · intro equal
    have ok : valid σ.frame = true := (valid_iff _).2 equal
    have reading : σ.res = .reading := σ.res_eq_reading_iff.2 ⟨st, ok⟩
    rw [reading]
    exact ⟨decodeFrame_of_valid ok, by decide, Regs.tempX10_of_reading reading, Regs.humX10_of_reading reading⟩
  · intro differ
    have bad : ¬ valid σ.frame = true := mt (valid_iff _).1 differ
    have mismatch : σ.res = .checksumMismatch := σ.res_eq_checksumMismatch_iff.2 ⟨st, Bool.eq_false_iff.2 bad⟩
    have noReading : σ.res ≠ .reading := by simp [mismatch]
    rw [mismatch]
    exact ⟨decodeFrame_of_not_valid bad, by decide, Regs.tempX10_of_no_reading noReading,
      Regs.humX10_of_no_reading noReading⟩

end Sys2Proof.Machine
end

section
/-! PROOFS. No partial data (R108): which registers each output reads, so that two register vectors that agree on those
show the same, and the obligation O36 assembled from these facts. -/

namespace Sys2Proof.Machine

section SameShownRegisters
variable {σ τ : Regs} (st : σ.st = τ.st)
include st

/-- Outside DONE the result tag is a function of the state; in DONE it also reads the validity of the frame. -/
theorem Regs.res_congr (valid_eq : σ.st = .done → valid σ.frame = valid τ.frame) : σ.res = τ.res := by
  unfold Regs.res
  rw [← st]
  cases state : σ.st with
  | idle | startLow | startHigh | awaitAck | waitHigh | measureHigh | failed => rfl
  | done => rw [valid_eq state]

theorem Regs.lineOe_congr : σ.lineOe = τ.lineOe := by
  rw [Regs.lineOe, Regs.lineOe, st]

theorem Regs.lineOut_congr : σ.lineOut = τ.lineOut := by
  rw [Regs.lineOut, Regs.lineOut, st]

theorem Regs.status_congr (index : σ.i = τ.i) (phase : σ.fphase = τ.fphase) (res : σ.res = τ.res) :
    σ.status = τ.status := by
  have busy : σ.busy = τ.busy := by rw [Regs.busy, Regs.busy, st]
  have done : σ.done = τ.done := by rw [Regs.done, Regs.done, st]
  have phaseField : σ.phaseField = τ.phaseField := by rw [Regs.phaseField, Regs.phaseField, st, phase]
  have idxValid : σ.idxValid = τ.idxValid := by rw [Regs.idxValid, Regs.idxValid, st, phase]
  have idxField : σ.idxField = τ.idxField := by rw [Regs.idxField, Regs.idxField, idxValid, index]
  rw [Regs.status, Regs.status, busy, done, st, res, phaseField, idxValid, idxField]

end SameShownRegisters

/-- The values follow the result tag, and read the frame only under a Reading. -/
theorem Regs.values_congr {σ τ : Regs} (res : σ.res = τ.res) (frame : σ.res = .reading → σ.frame = τ.frame) :
    σ.tempX10 = τ.tempX10 ∧ σ.humX10 = τ.humX10 := by
  by_cases reading : σ.res = .reading
  · have reading' : τ.res = .reading := res ▸ reading
    rw [tempX10_of_reading reading, tempX10_of_reading reading', humX10_of_reading reading,
      humX10_of_reading reading', frame reading]
    exact ⟨rfl, rfl⟩
  · have noReading' : τ.res ≠ .reading := res ▸ reading
    rw [tempX10_of_no_reading reading, tempX10_of_no_reading noReading', humX10_of_no_reading reading,
      humX10_of_no_reading noReading']
    exact ⟨rfl, rfl⟩

/-- Settles O36: the two result tags are equal, a Reading means DONE with a valid frame, and so every output reads only
what the two register vectors share. -/
theorem noPartialDataAtThePorts : Obligations.NoPartialDataAtThePorts := by
  refine ⟨fun σ noReading => ⟨Regs.tempX10_of_no_reading noReading, Regs.humX10_of_no_reading noReading⟩, ?_⟩
  intro σ τ st index phase shownFrame
  have res : σ.res = τ.res := Regs.res_congr st fun done => (shownFrame done).1
  have frame (reading : σ.res = .reading) : σ.frame = τ.frame :=
    have ⟨done, ok⟩ := σ.res_eq_reading_iff.1 reading
    (shownFrame done).2 ok
  obtain ⟨temperature, humidity⟩ := Regs.values_congr res frame
  rw [Regs.outputs, Regs.outputs, Regs.lineOe_congr st, Regs.lineOut_congr st, Regs.status_congr st index phase res,
    temperature, humidity]

end Sys2Proof.Machine
end

section
/-! PROOFS. Timeouts (R85, R116 to R118, R123): a wait of the sampler as a state, the level it waits out and the phase
it fails with; what polls that find that level do to the registers, one by one and in a run; and the obligations O25,
O53, O54 and O56 assembled from these facts. -/

namespace Sys2Proof.Machine

/-! ### The three waits (R85) -/

/-- The three waits of R86 to R88: in this state a poll that finds this level counts, and one too many of them is a
timeout of this phase. -/
inductive WaitsOut : St → Level → Phase → Prop
  | awaitAck : WaitsOut .awaitAck .high .awaitAck
  | waitHigh : WaitsOut .waitHigh .low .waitHigh
  | measureHigh : WaitsOut .measureHigh .high .measureHigh

/-- The registers after `n` polls that found the old level: each counts in `cnt` (R85), and in MEASURE_HIGH in `dur`
as well (R88). -/
def Regs.waited (σ : Regs) (n : Nat) : Regs :=
  { σ with cnt := σ.cnt + n, dur := if σ.st = .measureHigh then σ.dur + n else σ.dur }

@[simp] theorem Regs.waited_st (σ : Regs) (n : Nat) : (σ.waited n).st = σ.st := rfl
@[simp] theorem Regs.waited_cnt (σ : Regs) (n : Nat) : (σ.waited n).cnt = σ.cnt + n := rfl

@[simp] theorem Regs.waited_zero (σ : Regs) : σ.waited 0 = σ := by
  simp [Regs.waited]

theorem Regs.waited_waited (σ : Regs) (m n : Nat) : (σ.waited m).waited n = σ.waited (m + n) := by
  by_cases st : σ.st = .measureHigh <;> simp [Regs.waited, st, Nat.add_assoc]

/-- In AWAIT_ACK and WAIT_HIGH a wait from `cnt = 0` writes nothing but the number of its polls. -/
theorem Regs.waited_of_ne_measureHigh {σ : Regs} (st : σ.st ≠ .measureHigh) (cnt : σ.cnt = 0) (n : Nat) :
    σ.waited n = { σ with cnt := n } := by
  simp [Regs.waited, st, cnt]

/-- One poll that finds the level waited out (R86 to R88). -/
theorem blockStep_of_waitsOut (c : Config) {σ : Regs} {x : Input} {p : Phase} (wait : WaitsOut σ.st x.line p)
    (noReset : x.rst = false) : blockStep c σ x = boundedWait c σ p (σ.waited 1) := by
  obtain ⟨st, i, frame, tmr, cnt, dur, fphase⟩ := σ
  obtain ⟨rst, start, line⟩ := x
  cases noReset
  cases wait <;> rfl

/-- The Low poll that ends AWAIT_ACK (R86). -/
theorem blockStep_awaitAck_low (c : Config) {σ : Regs} {x : Input} (st : σ.st = .awaitAck) (noReset : x.rst = false)
    (low : x.line = .low) : blockStep c σ x = { σ with st := .waitHigh, cnt := 0 } := by
  simp [blockStep, noReset, stateStep, st, low, awaitAck]

/-- The High poll that ends WAIT_HIGH (R87). -/
theorem blockStep_waitHigh_high (c : Config) {σ : Regs} {x : Input} (st : σ.st = .waitHigh) (noReset : x.rst = false)
    (high : x.line = .high) : blockStep c σ x = { σ with st := .measureHigh, cnt := 0, dur := 0 } := by
  simp [blockStep, noReset, stateStep, st, high, waitHigh]

/-! ### The entry of FAILED (R123) -/

/-- A wait that ends a step in FAILED was past the ceiling. -/
theorem boundedWait_fails {c : Config} {σ stay : Regs} {p : Phase} (staySt : stay.st = σ.st) (before : σ.st ≠ .failed)
    (failed : (boundedWait c σ p stay).st = .failed) :
    σ.cnt + 1 > c.ceiling ∧ boundedWait c σ p stay = raiseTimeout σ p := by
  obtain fails | ⟨-, stays⟩ := boundedWait_cases c σ p stay
  · exact fails
  · rw [stays, staySt] at failed
    exact absurd failed before

/-- Every transition into FAILED is the timeout of a wait. -/
theorem blockStep_enters_failed {c : Config} {σ : Regs} {x : Input} (failed : (blockStep c σ x).st = .failed)
    (before : σ.st ≠ .failed) :
    ∃ p, WaitsOut σ.st x.line p ∧ σ.cnt + 1 > c.ceiling ∧ blockStep c σ x = raiseTimeout σ p := by
  obtain ⟨-, eq⟩ | ⟨-, -, -, eq⟩ | ⟨-, -, -, eq⟩ | ⟨-, st, eq⟩ | ⟨-, st, eq⟩ | ⟨-, st, eq⟩ | ⟨-, st, eq⟩ |
    ⟨-, st, eq⟩ := blockStep_cases c σ x <;> rw [eq] at failed ⊢
  · cases failed
  · cases failed
  · exact absurd failed before
  · obtain goes | goes := startLow_st c st <;> cases failed.symm.trans goes
  · obtain goes | goes := startHigh_st c st <;> cases failed.symm.trans goes
  · cases line : x.line with
    | low => rw [line] at failed; cases failed
    | high => rw [line] at failed; exact ⟨_, st ▸ .awaitAck, boundedWait_fails rfl before failed⟩
  · cases line : x.line with
    | low => rw [line] at failed; exact ⟨_, st ▸ .waitHigh, boundedWait_fails rfl before failed⟩
    | high => rw [line] at failed; cases failed
  · cases line : x.line with
    | low =>
      rw [line] at failed
      obtain goes | goes := appendBit_st σ (classify c σ.measuredDuration) <;> cases failed.symm.trans goes
    | high => rw [line] at failed; exact ⟨_, st ▸ .measureHigh, boundedWait_fails rfl before failed⟩

theorem WaitsOut.isPolling {st : St} {old : Level} {p : Phase} (wait : WaitsOut st old p) : st.isPolling = true := by
  cases wait <;> rfl

/-- The waits listed by state, level and phase. -/
theorem waitsOut_cases {st : St} {old : Level} {p : Phase} (wait : WaitsOut st old p) :
    (st = .awaitAck ∧ old = .high ∧ p = .awaitAck) ∨ (st = .waitHigh ∧ old = .low ∧ p = .waitHigh) ∨
      (st = .measureHigh ∧ old = .high ∧ p = .measureHigh) := by
  cases wait <;> simp

/-- Settles O25: the step into FAILED is the timeout of one of the three waits, whose state releases the line. -/
theorem failureEntryIsPrecise : Obligations.FailureEntryIsPrecise := by
  intro s t stepped failed before
  obtain ⟨-, rfl⟩ := step_next stepped
  obtain ⟨p, wait, past, eq⟩ := blockStep_enters_failed failed before
  obtain ⟨notBusy, done, timeout⟩ := Regs.flags_of_failed failed
  have released : (blockStep s.cfg s.regs s.input).lineDrive = none := by
    rw [eq, Regs.lineDrive_eq_none_iff]
    exact ⟨nofun, nofun⟩
  refine ⟨past, (s.regs.ports_of_polling wait.isPolling).1, released, notBusy, done, timeout, ?_⟩
  obtain ⟨st, line, rfl⟩ | ⟨st, line, rfl⟩ | ⟨st, line, rfl⟩ := waitsOut_cases wait
  · exact .inl ⟨st, line, eq⟩
  · exact .inr (.inl ⟨st, line, eq⟩)
  · exact .inr (.inr ⟨st, line, eq⟩)

/-! ### Runs of polls (R85, R91) -/

/-- Inputs without reset that carry these successive levels on the line. -/
abbrev Samples (xs : List Input) (levels : List Level) : Prop :=
  (∀ x ∈ xs, x.rst = false) ∧ xs.map Input.line = levels

theorem Samples.length_eq {xs : List Input} {levels : List Level} (h : Samples xs levels) :
    xs.length = levels.length := by
  rw [← h.2, List.length_map]

theorem Samples.split {xs : List Input} {levels levels' : List Level} (h : Samples xs (levels ++ levels')) :
    ∃ ys zs, xs = ys ++ zs ∧ Samples ys levels ∧ Samples zs levels' := by
  obtain ⟨noReset, lines⟩ := h
  obtain ⟨ys, zs, rfl, first, second⟩ := List.map_eq_append_iff.1 lines
  obtain ⟨noResetYs, noResetZs⟩ := List.forall_mem_append.1 noReset
  exact ⟨ys, zs, rfl, ⟨noResetYs, first⟩, noResetZs, second⟩

theorem Samples.uncons {xs : List Input} {level : Level} {levels : List Level} (h : Samples xs (level :: levels)) :
    ∃ x ys, xs = x :: ys ∧ x.rst = false ∧ x.line = level ∧ Samples ys levels := by
  obtain ⟨noReset, lines⟩ := h
  obtain ⟨x, ys, rfl, line, rest⟩ := List.map_eq_cons_iff.1 lines
  obtain ⟨noResetX, noResetYs⟩ := List.forall_mem_cons.1 noReset
  exact ⟨x, ys, rfl, noResetX, line, noResetYs, rest⟩

theorem Samples.nil {xs : List Input} (h : Samples xs []) : xs = [] := List.map_eq_nil_iff.1 h.2

/-- Polls that find the old level are counted, as long as the ceiling allows (R85). -/
theorem runBlock_of_waitsOut {c : Config} {old : Level} {p : Phase} {n : Nat} {σ : Regs} {xs : List Input}
    (wait : WaitsOut σ.st old p) (samples : Samples xs (List.replicate n old)) (within : σ.cnt + n ≤ c.ceiling) :
    runBlock c σ xs = σ.waited n := by
  induction n generalizing σ xs with
  | zero => rw [samples.nil, σ.waited_zero]; rfl
  | succ n ih =>
    obtain ⟨x, ys, rfl, noReset, rfl, rest⟩ := samples.uncons
    have stays : blockStep c σ x = σ.waited 1 := by
      rw [blockStep_of_waitsOut c wait noReset, boundedWait_of_le (by omega)]
    have within' : (σ.waited 1).cnt + n ≤ c.ceiling := by rw [σ.waited_cnt]; omega
    rw [runBlock, stays, ih (σ := σ.waited 1) wait rest within', σ.waited_waited, Nat.add_comm]

/-- A wait that begins with `cnt = 0` and polls the old level `CEILING + 1` times fails at the last of these polls
(R85). -/
theorem runBlock_times_out {c : Config} {old : Level} {p : Phase} {σ : Regs} {xs : List Input}
    (wait : WaitsOut σ.st old p) (cnt : σ.cnt = 0) (samples : Samples xs (List.replicate (c.ceiling + 1) old)) :
    runBlock c σ xs = raiseTimeout (σ.waited c.ceiling) p := by
  rw [List.replicate_succ'] at samples
  obtain ⟨ys, zs, rfl, counted, last⟩ := samples.split
  obtain ⟨x, _, rfl, noReset, rfl, empty⟩ := last.uncons
  rw [empty.nil, runBlock_append, runBlock_of_waitsOut wait counted (by omega), runBlock, runBlock,
    blockStep_of_waitsOut c (σ := σ.waited c.ceiling) wait noReset]
  exact boundedWait_of_gt (by rw [σ.waited_cnt]; omega) _ _

/-- The machine takes one step for each input of a stimulus, and its registers go through `runBlock`. -/
theorem core_run_of_inputs {s : State} {xs rest : List Input} {n : Nat} {r : Regs} (legal : s.cfg.Wf)
    (inputs : s.inputs = xs ++ rest) (length : xs.length = n) (regs : runBlock s.cfg s.regs xs = r) :
    ∃ t, Sys2Proof.core.run n s = .next t ∧ t.inputs = rest ∧ t.regs = r := by
  subst length regs
  refine ⟨_, core_run_eq xs.length s legal, ?_, ?_⟩
  · rw [inputs, List.drop_left]
  · rw [State.inputsAhead_of_inputs inputs]

/-! ### The timeouts of an exchange (R116 to R118) -/

/-- Settles O53: the High polls are waited out, then either a Low poll leaves or one more High poll fails. -/
theorem awaitAckRun : Obligations.AwaitAckRun := by
  intro s a polls rest legal st cnt inputs noReset
  have wait : WaitsOut s.regs.st .high .awaitAck := st ▸ .awaitAck
  have counts (n : Nat) : s.regs.waited n = { s.regs with cnt := n } :=
    Regs.waited_of_ne_measureHigh (by simp [st]) cnt n
  refine ⟨fun within lines => ?_, fun lines => ?_⟩
  · have samples : Samples polls (List.replicate a .high ++ [.low]) := ⟨noReset, lines⟩
    refine core_run_of_inputs legal inputs (by simp [samples.length_eq]) ?_
    obtain ⟨ys, zs, rfl, highs, last⟩ := samples.split
    obtain ⟨x, _, rfl, noResetX, low, empty⟩ := last.uncons
    rw [empty.nil, runBlock_append, runBlock_of_waitsOut wait highs (by omega), counts]
    exact blockStep_awaitAck_low s.cfg st noResetX low
  · have samples : Samples polls (List.replicate (s.cfg.ceiling + 1) .high) := ⟨noReset, lines⟩
    refine core_run_of_inputs legal inputs (by simp [samples.length_eq]) ?_
    rw [runBlock_times_out wait cnt samples, counts]
    rfl

/-- Settles O54: the whole run is one wait, which fails at its last poll. -/
theorem longLowRunTimesOut : Obligations.LongLowRunTimesOut := by
  intro s polls rest legal st cnt inputs noReset lines
  have samples : Samples polls (List.replicate (s.cfg.ceiling + 1) .low) := ⟨noReset, lines⟩
  have wait : WaitsOut s.regs.st .low .waitHigh := st ▸ .waitHigh
  refine core_run_of_inputs legal inputs (by simp [samples.length_eq]) ?_
  rw [runBlock_times_out wait cnt samples, Regs.waited_of_ne_measureHigh (by simp [st]) cnt]
  rfl

/-- Settles O56: the Low run is waited out, its first High poll enters MEASURE_HIGH with both counters 0, and the
other `CEILING + 1` are one wait that fails. -/
theorem longHighRunTimesOut : Obligations.LongHighRunTimesOut := by
  intro s lam polls rest legal st cnt within inputs noReset lines
  have samples : Samples polls (List.replicate lam .low ++ List.replicate (s.cfg.ceiling + 2) .high) :=
    ⟨noReset, lines⟩
  refine core_run_of_inputs legal inputs (by simp [samples.length_eq, Nat.add_assoc]) ?_
  obtain ⟨lows, zs, rfl, lowRun, highRun⟩ := samples.split
  obtain ⟨x, highs, rfl, noResetX, rise, highs'⟩ := highRun.uncons
  have risen : blockStep s.cfg { s.regs with cnt := lam } x = { s.regs with st := .measureHigh, cnt := 0, dur := 0 } :=
    blockStep_waitHigh_high s.cfg st noResetX rise
  have wait : WaitsOut s.regs.st .low .waitHigh := st ▸ .waitHigh
  rw [runBlock_append, runBlock_of_waitsOut wait lowRun (by omega),
    Regs.waited_of_ne_measureHigh (by simp [st]) cnt, runBlock, risen, runBlock_times_out .measureHigh rfl highs']
  simp [raiseTimeout, Regs.waited]

end Sys2Proof.Machine
end

section
/-! PROOFS. The reset input (R140, R141): the operation RST, what the first step after it runs, what an exchange loses
by it, and the obligations of resets assembled from these facts. -/

namespace Sys2Proof.Machine

theorem exec_rst (s : State) : exec .rst s = .next (s.setRegs Regs.reset) := rfl

/-- Without reset, the step of IDLE is the operation IDLE, whatever `start` and the line are. -/
theorem selectOperation_of_idle {s : State} (idle : s.regs.st = .idle) (noReset : s.input.rst = false) :
    selectOperation s = .idle := by
  have code : decodeStateCode (stCode .idle) = .idle := rfl
  simp [selectOperation, noReset, idle, code]

/-- Settles O1: RST writes the reset registers, a step under `rst` runs it, and the state it leaves selects IDLE. -/
theorem resetFromEveryState : Obligations.ResetFromEveryState :=
  ⟨exec_rst, fun _ legal rst => step_of_rst legal rst,
    fun _ fresh noReset => selectOperation_of_idle (congrArg Regs.st fresh) noReset⟩

theorem Regs.result_of_idle {σ : Regs} (idle : σ.st = .idle) : σ.result = .none := by
  simp [Regs.result, idle]

/-- Settles O2: the step leads to the reset registers, whose frame is empty; that no result is left and that the line
is released follow from their state being IDLE. -/
theorem resetEndsAnExchange : Obligations.ResetEndsAnExchange := by
  intro s legal _ rst
  have idle : Regs.reset.st = .idle := rfl
  have holding : Regs.reset.st.isHolding = true := rfl
  exact ⟨_, step_of_rst legal rst, idle, rfl, Regs.res_of_idle idle, Regs.result_of_idle idle,
    Regs.lineDrive_of_holding holding⟩

end Sys2Proof.Machine
end

section
/-! PROOFS. Encodings (R51, R55, R59, R60): leading runs of a sample stream, what the wire decoder accepts, that the
decoder and the encoder are inverse to each other on the well-formed operations, and the obligations O9, O10, O8 and
O11 assembled from these facts. -/

namespace Sys2Proof

/-! ### Leading runs -/

theorem leadingRun_cons_self (l : Level) (xs : List Level) :
    leadingRun l (l :: xs) = ((leadingRun l xs).1 + 1, (leadingRun l xs).2) := if_pos rfl

theorem leadingRun_cons_of_ne {l x : Level} (other : x ≠ l) (xs : List Level) : leadingRun l (x :: xs) = (0, x :: xs) :=
  if_neg other

/-- A run that another level ends is split off whole. -/
theorem leadingRun_replicate_append {l x : Level} (other : x ≠ l) (n : Nat) (xs : List Level) :
    leadingRun l (List.replicate n l ++ x :: xs) = (n, x :: xs) := by
  induction n with
  | zero => exact leadingRun_cons_of_ne other xs
  | succ n ih => rw [List.replicate_succ, List.cons_append, leadingRun_cons_self, ih]

/-- A leading run and the rest are the whole stream. -/
theorem replicate_leadingRun_append (l : Level) (xs : List Level) :
    List.replicate (leadingRun l xs).1 l ++ (leadingRun l xs).2 = xs := by
  induction xs with
  | nil => rfl
  | cons x xs ih =>
    by_cases same : x = l
    · rw [same, leadingRun_cons_self, List.replicate_succ, List.cons_append, ih]
    · rw [leadingRun_cons_of_ne same]
      rfl

/-! ### The wire symbols (R51, R91) -/

/-- The symbol that a pulse of these runs stands for, by the threshold (R51, R89). -/
def symbolOf (c : Config) (lam h : Nat) : Instr := if h ≤ c.threshTicks then .sym0 lam h else .sym1 lam h

theorem sym0_eq_symbolOf {c : Config} {h : Nat} (zero : h ≤ c.threshTicks) (lam : Nat) :
    .sym0 lam h = symbolOf c lam h := (if_pos zero).symm

theorem sym1_eq_symbolOf {c : Config} {h : Nat} (one : c.threshTicks < h) (lam : Nat) :
    .sym1 lam h = symbolOf c lam h := (if_neg (Nat.not_le.2 one)).symm

theorem encode_symbolOf (c : Config) (lam h : Nat) :
    encode (symbolOf c lam h) = .wire (pulseSamples lam h ++ [.low]) := by
  unfold symbolOf
  split <;> rfl

/-- The symbol of a pulse is well formed when neither of its runs is a timeout. -/
theorem symbolOf_wf {c : Config} {lam h : Nat} (low : LowRunOk c lam) (high : 1 ≤ h ∧ h ≤ c.ceiling + 1) :
    (symbolOf c lam h).Wf c := by
  unfold symbolOf
  split
  · exact ⟨low, high.1, ‹_›⟩
  · exact ⟨low, Nat.lt_of_not_le ‹_›, high.2⟩

/-- What the symbol reader accepts (R51, R60): two runs of allowed lengths and at least one sample after them. -/
theorem readSymbol_eq_ok_iff {c : Config} {samples high ends rest : List Level} {lam h : Nat} {i : Instr}
    (lowRun : leadingRun .low samples = (lam, high)) (highRun : leadingRun .high high = (h, ends)) :
    readSymbol c samples = .ok (i, rest) ↔
      LowRunOk c lam ∧ (1 ≤ h ∧ h ≤ c.ceiling + 1) ∧ ends ≠ [] ∧ i = symbolOf c lam h ∧ rest = ends := by
  have threshold : (if h ≤ c.threshTicks then Except.ok (.sym0 lam h, ends) else .ok (.sym1 lam h, ends)) =
      (.ok (symbolOf c lam h, ends) : Except DecodeError _) := by
    unfold symbolOf
    split <;> rfl
  simp only [readSymbol, lowRun, highRun, threshold]
  split_ifs with noLow lowLong noHigh highLong missing
  · simp [noLow]
  · simp [Nat.not_le.2 lowLong]
  · simp [noHigh]
  · simp [Nat.not_le.2 highLong]
  · simp [missing]
  · have low : LowRunOk c lam := ⟨by omega, by omega⟩
    have high : 1 ≤ h ∧ h ≤ c.ceiling + 1 := ⟨by omega, by omega⟩
    exact ⟨by rintro ⟨⟩; exact ⟨low, high, missing, rfl, rfl⟩, by rintro ⟨-, -, -, rfl, rfl⟩; rfl⟩

/-- The samples of a pulse and the Low sample that ends it are the word of its symbol (R51). -/
theorem decodeWire_pulseSamples {c : Config} {lam h : Nat} (low : LowRunOk c lam) (high : 1 ≤ h ∧ h ≤ c.ceiling + 1) :
    decodeWire c (pulseSamples lam h ++ [.low]) = .ok (symbolOf c lam h) := by
  obtain ⟨more, rfl⟩ : ∃ more, h = more + 1 := ⟨h - 1, by omega⟩
  have lowRun : leadingRun .low (pulseSamples lam (more + 1) ++ [.low]) =
      (lam, List.replicate (more + 1) .high ++ [.low]) := by
    rw [pulseSamples, List.append_assoc, List.replicate_succ, List.cons_append]
    exact leadingRun_replicate_append (by decide) lam _
  have highRun : leadingRun .high (List.replicate (more + 1) .high ++ [.low]) = (more + 1, [.low]) :=
    leadingRun_replicate_append (by decide) (more + 1) []
  have read : readSymbol c (pulseSamples lam (more + 1) ++ [.low]) = .ok (symbolOf c lam (more + 1), [.low]) :=
    (readSymbol_eq_ok_iff lowRun highRun).2 ⟨low, high, by simp, rfl, rfl⟩
  simp [decodeWire, read]

/-- Inversion of the wire decoder: what it reads is the symbol of a pulse with allowed runs, and nothing else. -/
theorem decodeWire_eq_ok {c : Config} {samples : List Level} {i : Instr} (decoded : decodeWire c samples = .ok i) :
    ∃ lam h, LowRunOk c lam ∧ (1 ≤ h ∧ h ≤ c.ceiling + 1) ∧ i = symbolOf c lam h ∧
      samples = pulseSamples lam h ++ [.low] := by
  unfold decodeWire at decoded
  split at decoded
  · cases decoded
  · next j rest read =>
    split at decoded
    · next ended =>
      cases decoded
      obtain ⟨low, high, -, symbol, left⟩ := (readSymbol_eq_ok_iff rfl rfl).1 read
      refine ⟨_, _, low, high, symbol, ?_⟩
      rw [pulseSamples, List.append_assoc, ← ended, left, replicate_leadingRun_append, replicate_leadingRun_append]
    · cases decoded

/-! ### Decoder and encoder -/

/-- Settles O9: the rows with fixed bits are read off the tables, and a symbol's pulse is split into its two runs. -/
theorem decodeOfEncode : Obligations.DecodeOfEncode := by
  intro c i legal wf
  cases i with
  | idle | startLow | startHigh | awaitAck | waitHigh | measureHigh | done | failed | start | nop | rst => rfl
  | sym0 lam h =>
    obtain ⟨low, some, zero⟩ : LowRunOk c lam ∧ 1 ≤ h ∧ h ≤ c.threshTicks := wf
    have within : h ≤ c.ceiling + 1 := by omega
    rw [sym0_eq_symbolOf zero, encode_symbolOf]
    exact decodeWire_pulseSamples low ⟨some, within⟩
  | sym1 lam h =>
    obtain ⟨low, one, within⟩ : LowRunOk c lam ∧ c.threshTicks < h ∧ h ≤ c.ceiling + 1 := wf
    have some : 1 ≤ h := by omega
    rw [sym1_eq_symbolOf one, encode_symbolOf]
    exact decodeWire_pulseSamples low ⟨some, within⟩

theorem encode_decodeStateCode (code : BitVec 3) : encode (decodeStateCode code) = .state code := by
  revert code
  decide

theorem encode_decodeCommand (start : BitVec 1) : encode (decodeCommand start) = .command start := by
  revert start
  decide

theorem decodeStateCode_wf (c : Config) (code : BitVec 3) : (decodeStateCode code).Wf c := by
  unfold decodeStateCode
  split <;> trivial

theorem decodeCommand_wf (c : Config) (start : BitVec 1) : (decodeCommand start).Wf c := by
  unfold decodeCommand
  split <;> trivial

/-- Settles O10: by format; a wire word that decodes is its symbol's pulse. -/
theorem encodeOfDecode : Obligations.EncodeOfDecode := by
  intro c w i decoded
  cases w with
  | state code =>
    cases decoded
    exact ⟨encode_decodeStateCode code, decodeStateCode_wf c code⟩
  | command start =>
    cases decoded
    exact ⟨encode_decodeCommand start, decodeCommand_wf c start⟩
  | reset rst =>
    by_cases asserted : rst = 1#1
    · subst asserted
      cases decoded
      exact ⟨rfl, trivial⟩
    · simp [decode, asserted] at decoded
  | wire samples =>
    obtain ⟨lam, h, low, high, rfl, rfl⟩ := decodeWire_eq_ok decoded
    exact ⟨encode_symbolOf c lam h, symbolOf_wf low high⟩

/-! ### Words and rows written out from the tables -/

/-- Settles O8: each word is the encoding of its operation, so the two symbols need their operand ranges only. -/
theorem writtenOutWordsDecode : Obligations.WrittenOutWordsDecode := by
  have legal : (Config.default 1).Wf := by decide
  exact ⟨rfl, rfl, rfl, rfl, rfl, rfl, rfl, decodeOfEncode _ (.sym0 2 50) legal (by decide),
    decodeOfEncode _ (.sym1 2 51) legal (by decide)⟩

/-- Settles O11: a finite check over the eleven rows with fixed bits and the eight state codes. -/
theorem tableRowsDoNotOverlap : Obligations.TableRowsDoNotOverlap := by
  constructor <;> decide

end Sys2Proof
end

section
/-! PROOFS. The pure functions of a frame and of a duration (R54, R90, R97, R98, R150): APPEND as a shift, the frames
that five bytes make up, the conversion to tenths, ticks as microseconds, and the obligations O39, O42, O43 and O58
assembled from these facts. -/

namespace Sys2Proof.Machine

/-! ### APPEND (R90) -/

theorem append_getLsbD_zero (F : Frame) (b : Bool) : (append F b).getLsbD 0 = b :=
  BitVec.getLsbD_append.trans (by simp)

theorem append_getLsbD_succ (F : Frame) (b : Bool) {k : Nat} (inFrame : k < 39) :
    (append F b).getLsbD (k + 1) = F.getLsbD k :=
  BitVec.getLsbD_append.trans (by simp [inFrame])

/-- APPEND is the library's shift that takes a bit in. -/
theorem append_eq_shiftConcat (F : Frame) (b : Bool) : append F b = F.shiftConcat b := by
  refine BitVec.eq_of_getLsbD_eq fun k inFrame => ?_
  rw [BitVec.getLsbD_shiftConcat]
  cases k with
  | zero => rw [append_getLsbD_zero]; rfl
  | succ k => rw [append_getLsbD_succ F b (by omega)]; simp [inFrame]

theorem append_toNat (F : Frame) (b : Bool) : (append F b).toNat = (2 * F.toNat + b.toNat) % 2 ^ 40 := by
  have bit : b.toNat < 2 := b.toNat_lt
  rw [append_eq_shiftConcat, BitVec.toNat_shiftConcat, Nat.shiftLeft_eq]
  omega

/-- Settles O39: the value is that of the shift, and each bit is read off the concatenation. -/
theorem appendShiftsTheBitIn : Obligations.AppendShiftsTheBitIn := fun F b =>
  ⟨append_toNat F b, append_getLsbD_zero F b, fun _ => append_getLsbD_succ F b⟩

/-! ### The frames of given data bytes (R54, R97) -/

section FrameOfBytes
variable (b0 b1 b2 b3 b4 : Byte)

theorem byteView_append_zero : byteView (b0 ++ b1 ++ b2 ++ b3 ++ b4) 0 = b0 := by
  unfold byteView
  iterate 3 rw [BitVec.extractLsb'_append_eq_of_le (by decide)]
  exact BitVec.extractLsb'_append_eq_left

theorem byteView_append_one : byteView (b0 ++ b1 ++ b2 ++ b3 ++ b4) 1 = b1 := by
  unfold byteView
  iterate 3 rw [BitVec.extractLsb'_append_eq_of_le (by decide)]
  exact BitVec.extractLsb'_append_eq_right

theorem byteView_append_two : byteView (b0 ++ b1 ++ b2 ++ b3 ++ b4) 2 = b2 := by
  unfold byteView
  iterate 2 rw [BitVec.extractLsb'_append_eq_of_le (by decide)]
  exact BitVec.extractLsb'_append_eq_right

theorem byteView_append_three : byteView (b0 ++ b1 ++ b2 ++ b3 ++ b4) 3 = b3 := by
  unfold byteView
  rw [BitVec.extractLsb'_append_eq_of_le (by decide)]
  exact BitVec.extractLsb'_append_eq_right

theorem byteView_append_four : byteView (b0 ++ b1 ++ b2 ++ b3 ++ b4) 4 = b4 :=
  BitVec.extractLsb'_append_eq_right

/-- A frame put together from five bytes is valid when the fifth is the sum of the others (R96, R97). -/
theorem valid_append_iff : valid (b0 ++ b1 ++ b2 ++ b3 ++ b4) = true ↔ b0 + b1 + b2 + b3 = b4 := by
  rw [valid_iff, checksum_eq_add, byteView_append_zero, byteView_append_one, byteView_append_two,
    byteView_append_three, byteView_append_four]

end FrameOfBytes

/-- Settles O42: the valid frame is the four bytes with their sum, and a frame is its bytes. -/
theorem oneValidFramePerData : Obligations.OneValidFramePerData := by
  refine ⟨valid_iff, fun b0 b1 b2 b3 => ⟨b0 ++ b1 ++ b2 ++ b3 ++ (b0 + b1 + b2 + b3), ?_, ?_⟩⟩
  · exact ⟨(valid_append_iff ..).2 rfl, byteView_append_zero .., byteView_append_one .., byteView_append_two ..,
      byteView_append_three ..⟩
  · rintro F ⟨ok, rfl, rfl, rfl, rfl⟩
    rw [← checksum_eq_add, (valid_iff F).1 ok]
    exact frame_eq_byteView_append F

/-! ### CONVERT (R98, R102) -/

/-- Ten times a byte and another byte fit the twelve bits of a value in tenths. -/
theorem tenths_toNat (whole tenth : Byte) :
    (BitVec.ofNat 12 (10 * whole.toNat + tenth.toNat)).toNat = 10 * whole.toNat + tenth.toNat ∧
      10 * whole.toNat + tenth.toNat ≤ 2805 := by
  have wholeByte : whole.toNat < 256 := whole.isLt
  have tenthByte : tenth.toNat < 256 := tenth.isLt
  rw [BitVec.toNat_ofNat]
  omega

theorem h10_toNat (F : Frame) : (h10 F).toNat = 10 * (byteView F 0).toNat + (byteView F 1).toNat :=
  (tenths_toNat _ _).1

theorem t10_toNat (F : Frame) : (t10 F).toNat = 10 * (byteView F 2).toNat + (byteView F 3).toNat :=
  (tenths_toNat _ _).1

/-- A value in tenths read as a sum of whole and tenth part. -/
theorem tenthsValue_eq_add {v : Tenths} {whole tenth : Byte} (value : v.toNat = 10 * whole.toNat + tenth.toNat) :
    tenthsValue v = (whole.toNat : ℚ) + (tenth.toNat : ℚ) / 10 := by
  rw [tenthsValue, value]
  push_cast
  ring

/-- Settles O43: both values are ten times a byte and a byte, which twelve bits hold. -/
theorem conversionIsExact : Obligations.ConversionIsExact := fun F =>
  ⟨h10_toNat F, (h10_toNat F).trans_le (tenths_toNat _ _).2, t10_toNat F, (t10_toNat F).trans_le (tenths_toNat _ _).2,
    tenthsValue_eq_add (h10_toNat F), tenthsValue_eq_add (t10_toNat F)⟩

/-! ### Ticks as physical time (R6, R150) -/

theorem ticksToMicros_mul {c : Config} (rate : 1 ≤ c.ticksPerUs) (us : Nat) :
    ticksToMicros c (us * c.ticksPerUs) = us := by
  have nonzero : (c.ticksPerUs : ℚ) ≠ 0 := Nat.cast_ne_zero.2 (by omega)
  rw [ticksToMicros, Nat.cast_mul, mul_div_cancel_right₀ _ nonzero]

/-- Settles O58: a drive's ticks are its microseconds times the rate, and the longest wait is `CEILING + 1` ticks. -/
theorem drivesLastTheirMicroseconds : Obligations.DrivesLastTheirMicroseconds := by
  rintro c ⟨rate, -⟩
  refine ⟨ticksToMicros_mul rate c.tLowUs, ticksToMicros_mul rate c.tHighUs, ?_⟩
  rw [ticksToMicros, longestWait, Nat.cast_succ]

end Sys2Proof.Machine
end

section
/-! PROOFS. The invariants (R24, R15, R4): what the eight items say in each state, that every transition keeps them and
the law of `cnt`, the widths of the counters, and the obligations O45, O46, O47 and O48 assembled from these facts. -/

namespace Sys2Proof.Machine

/-! ### The invariants, state by state (R24) -/

/-- What the eight items of R24 amount to, read off state by state. -/
abbrev InvIn (c : Config) (σ : Regs) : Prop :=
  σ.cnt ≤ c.ceiling ∧
    match σ.st with
    | .idle => σ.frame = 0#40 ∧ σ.tmr = 0 ∧ σ.dur = 0 ∧ σ.fphase = .none
    | .startLow => σ.i = 0 ∧ σ.frame = 0#40 ∧ σ.tmr < c.tLowTicks ∧ σ.dur = 0 ∧ σ.fphase = .none
    | .startHigh => σ.i = 0 ∧ σ.frame = 0#40 ∧ σ.tmr < c.tHighTicks ∧ σ.dur = 0 ∧ σ.fphase = .none
    | .awaitAck => σ.i = 0 ∧ σ.frame = 0#40 ∧ σ.tmr = 0 ∧ σ.dur = 0 ∧ σ.fphase = .none
    | .waitHigh => σ.frame.toNat < 2 ^ σ.i.val ∧ σ.tmr = 0 ∧ σ.dur = 0 ∧ σ.fphase = .none
    | .measureHigh => σ.frame.toNat < 2 ^ σ.i.val ∧ σ.tmr = 0 ∧ σ.dur = σ.cnt ∧ σ.fphase = .none
    | .done => σ.i = 39 ∧ σ.tmr = 0 ∧ σ.cnt = 0 ∧ σ.dur = 0 ∧ σ.fphase = .none
    | .failed => σ.tmr = 0 ∧
        ((σ.fphase = .awaitAck ∧ σ.frame = 0#40 ∧ σ.dur = 0) ∨
          (σ.fphase = .waitHigh ∧ σ.frame.toNat < 2 ^ σ.i.val ∧ σ.dur = 0) ∨
          (σ.fphase = .measureHigh ∧ σ.frame.toNat < 2 ^ σ.i.val ∧ σ.dur = c.ceiling ∧ σ.cnt = c.ceiling))

/-- Item 5 where no bit is held. -/
theorem frame_toNat_lt_one_iff (F : Frame) : F.toNat < 1 ↔ F = 0#40 :=
  Nat.lt_one_iff.trans (BitVec.toNat_eq (y := 0#40)).symm

/-- At a given state each of the eight items is empty or says something plain about the registers there. -/
theorem inv_iff {c : Config} {σ : Regs} : Inv c σ ↔ InvIn c σ := by
  have index : σ.i.val ≤ 39 := by omega
  have frame : σ.frame.toNat < 2 ^ 40 := σ.frame.isLt
  have empty := frame_toNat_lt_one_iff σ.frame
  constructor
  · rintro ⟨-, counters, timer, duration, bits, phase, done, fresh⟩
    unfold Regs.bitsHeld at bits
    unfold InvIn
    cases st : σ.st with
    | idle | startLow | startHigh | awaitAck | waitHigh | measureHigh | done => simp_all [St.isDriving]
    | failed => cases ph : σ.fphase <;> simp_all [St.isDriving]
  · rintro ⟨cnt, inState⟩
    cases st : σ.st with
    | idle | startLow | startHigh | awaitAck | waitHigh | measureHigh | done =>
      constructor <;> simp_all [St.isDriving, Regs.bitsHeld]
    | failed =>
      rw [st] at inState
      obtain ⟨tmr, ⟨ph, bits, dur⟩ | ⟨ph, bits, dur⟩ | ⟨ph, bits, dur, cnt⟩⟩ := inState <;>
        constructor <;> simp_all [St.isDriving, Regs.bitsHeld]

/-! ### Every transition keeps them -/

theorem inv_reset (c : Config) : Inv c Regs.reset := inv_iff.2 ⟨Nat.zero_le _, rfl, rfl, rfl, rfl⟩

theorem inv_startExchange {c : Config} (legal : c.Wf) (σ : Regs) : Inv c (startExchange σ) :=
  inv_iff.2 ⟨Nat.zero_le _, rfl, rfl, legal.2.1, rfl, rfl⟩

/-- A bit takes its place above the bits the frame holds. -/
theorem append_toNat_lt {F : Frame} {n : Nat} (held : F.toNat < 2 ^ n) (b : Bool) :
    (append F b).toNat < 2 ^ (n + 1) := by
  have bit : b.toNat < 2 := b.toNat_lt
  rw [append_toNat]
  calc (2 * F.toNat + b.toNat) % 2 ^ 40
    _ ≤ 2 * F.toNat + b.toNat := Nat.mod_le ..
    _ < 2 ^ (n + 1) := by omega

section TransitionsKeepTheInvariants
variable {c : Config} {σ : Regs} (inv : Inv c σ)
include inv

theorem startLow_keeps_inv (legal : c.Wf) (st : σ.st = .startLow) : Inv c (startLow c σ) := by
  obtain ⟨-, -, highTicks, -⟩ := legal
  rw [inv_iff] at inv
  simp only [InvIn, st] at inv
  obtain ⟨cnt, i, frame, tmr, dur, phase⟩ := inv
  obtain ⟨-, leaves⟩ | ⟨more, stays⟩ := startLow_cases c σ
  · rw [leaves]
    exact inv_iff.2 ⟨cnt, i, frame, highTicks, dur, phase⟩
  · rw [stays, inv_iff]
    simp only [InvIn, st]
    exact ⟨cnt, i, frame, by omega, dur, phase⟩

theorem startHigh_keeps_inv (st : σ.st = .startHigh) : Inv c (startHigh c σ) := by
  rw [inv_iff] at inv
  simp only [InvIn, st] at inv
  obtain ⟨cnt, i, frame, tmr, dur, phase⟩ := inv
  obtain ⟨-, leaves⟩ | ⟨more, stays⟩ := startHigh_cases c σ
  · rw [leaves]
    exact inv_iff.2 ⟨Nat.zero_le _, i, frame, rfl, dur, phase⟩
  · rw [stays, inv_iff]
    simp only [InvIn, st]
    exact ⟨cnt, i, frame, by omega, dur, phase⟩

theorem awaitAck_keeps_inv (st : σ.st = .awaitAck) (line : Level) : Inv c (awaitAck c σ line) := by
  rw [inv_iff] at inv ⊢
  simp only [InvIn, st] at inv
  obtain ⟨cnt, i, frame, tmr, dur, phase⟩ := inv
  cases line with
  | low => exact ⟨Nat.zero_le _, show σ.frame.toNat < 2 ^ σ.i.val by simp [i, frame], tmr, dur, phase⟩
  | high =>
    obtain ⟨-, fails⟩ | ⟨within, stays⟩ := boundedWait_cases c σ .awaitAck { σ with cnt := σ.cnt + 1 }
    · rw [awaitAck, fails]
      exact ⟨cnt, tmr, .inl ⟨rfl, frame, dur⟩⟩
    · rw [awaitAck, stays]
      simp only [InvIn, st]
      exact ⟨within, i, frame, tmr, dur, phase⟩

theorem waitHigh_keeps_inv (st : σ.st = .waitHigh) (line : Level) : Inv c (waitHigh c σ line) := by
  rw [inv_iff] at inv ⊢
  simp only [InvIn, st] at inv
  obtain ⟨cnt, frame, tmr, dur, phase⟩ := inv
  cases line with
  | high => exact ⟨Nat.zero_le _, frame, tmr, rfl, phase⟩
  | low =>
    obtain ⟨-, fails⟩ | ⟨within, stays⟩ := boundedWait_cases c σ .waitHigh { σ with cnt := σ.cnt + 1 }
    · rw [waitHigh, fails]
      exact ⟨cnt, tmr, .inr (.inl ⟨rfl, frame, dur⟩)⟩
    · rw [waitHigh, stays]
      simp only [InvIn, st]
      exact ⟨within, frame, tmr, dur, phase⟩

theorem appendBit_keeps_inv (st : σ.st = .measureHigh) (b : Bool) : Inv c (appendBit σ b) := by
  rw [inv_iff] at inv ⊢
  simp only [InvIn, st] at inv
  obtain ⟨cnt, frame, tmr, dur, phase⟩ := inv
  obtain ⟨last, eq⟩ | ⟨more, eq⟩ := appendBit_cases σ b <;> rw [eq]
  · exact ⟨Nat.zero_le _, last, tmr, rfl, rfl, phase⟩
  · refine ⟨Nat.zero_le _, ?_, tmr, rfl, phase⟩
    rw [index_succ more]
    exact append_toNat_lt frame b

theorem measureHigh_keeps_inv (st : σ.st = .measureHigh) (line : Level) : Inv c (measureHigh c σ line) := by
  cases line with
  | low => exact appendBit_keeps_inv inv st _
  | high =>
    rw [inv_iff] at inv ⊢
    simp only [InvIn, st] at inv
    obtain ⟨cnt, frame, tmr, dur, phase⟩ := inv
    obtain ⟨past, fails⟩ | ⟨within, stays⟩ :=
      boundedWait_cases c σ .measureHigh { σ with cnt := σ.cnt + 1, dur := σ.dur + 1 }
    · have ceiling : σ.cnt = c.ceiling := by omega
      rw [measureHigh, fails]
      exact ⟨cnt, tmr, .inr (.inr ⟨rfl, frame, dur.trans ceiling, ceiling⟩)⟩
    · rw [measureHigh, stays]
      simp only [InvIn, st]
      exact ⟨within, frame, tmr, congrArg (· + 1) dur, phase⟩

theorem blockStep_keeps_inv (legal : c.Wf) (x : Input) : Inv c (blockStep c σ x) := by
  obtain ⟨-, eq⟩ | ⟨-, -, -, eq⟩ | ⟨-, -, -, eq⟩ | ⟨-, st, eq⟩ | ⟨-, st, eq⟩ | ⟨-, st, eq⟩ | ⟨-, st, eq⟩ |
    ⟨-, st, eq⟩ := blockStep_cases c σ x <;> rw [eq]
  · exact inv_reset c
  · exact inv_startExchange legal σ
  · exact inv
  · exact startLow_keeps_inv inv legal st
  · exact startHigh_keeps_inv inv st
  · exact awaitAck_keeps_inv inv st x.line
  · exact waitHigh_keeps_inv inv st x.line
  · exact measureHigh_keeps_inv inv st x.line

end TransitionsKeepTheInvariants

/-- Settles O45: nothing is counted and no bit is held in the reset registers. -/
theorem invariantsHoldAtReset : Obligations.InvariantsHoldAtReset :=
  ⟨fun c _ => inv_reset c, by decide, inv_reset _⟩

/-- Settles O46: a step is a transition over the same configuration, and each transition keeps the eight items. -/
theorem stepKeepsTheInvariants : Obligations.StepKeepsTheInvariants := by
  rintro s t ⟨legal, inv⟩ stepped
  obtain ⟨-, rfl⟩ := step_next stepped
  exact ⟨legal, blockStep_keeps_inv inv legal s.input⟩

/-! ### The law of `cnt` (R15) -/

/-- During the waits the law asks nothing. -/
theorem countLaw_of_polling (c : Config) {σ : Regs} (polling : σ.st.isPolling = true) : CountLaw c σ := by
  constructor <;> cases st : σ.st <;> simp_all [St.isPolling]

theorem countLaw_of_cnt_zero (c : Config) {σ : Regs} (cnt : σ.cnt = 0) (notFailed : σ.st ≠ .failed) : CountLaw c σ :=
  ⟨fun _ => cnt, fun failed => absurd failed notFailed⟩

/-- A poll that finds the old level stays in its wait or fails with `cnt` at the ceiling. -/
theorem boundedWait_countLaw {c : Config} {σ stay : Regs} (p : Phase) (cnt : σ.cnt ≤ c.ceiling)
    (polling : stay.st.isPolling = true) : CountLaw c (boundedWait c σ p stay) := by
  obtain ⟨past, fails⟩ | ⟨-, stays⟩ := boundedWait_cases c σ p stay
  · rw [fails]
    exact ⟨nofun, fun _ => show σ.cnt = c.ceiling by omega⟩
  · rw [stays]
    exact countLaw_of_polling c polling

theorem blockStep_keeps_countLaw {c : Config} {σ : Regs} (cnt : σ.cnt ≤ c.ceiling) (law : CountLaw c σ) (x : Input) :
    CountLaw c (blockStep c σ x) := by
  obtain ⟨-, eq⟩ | ⟨-, -, -, eq⟩ | ⟨-, -, -, eq⟩ | ⟨-, st, eq⟩ | ⟨-, st, eq⟩ | ⟨-, st, eq⟩ | ⟨-, st, eq⟩ |
    ⟨-, st, eq⟩ := blockStep_cases c σ x <;> rw [eq]
  · exact countLaw_of_cnt_zero c rfl nofun
  · exact countLaw_of_cnt_zero c rfl nofun
  · exact law
  · have zero : σ.cnt = 0 := law.zeroOutsideWaits (by simp [st])
    obtain ⟨-, eq⟩ | ⟨-, eq⟩ := startLow_cases c σ <;> rw [eq] <;> exact countLaw_of_cnt_zero c zero (by simp [st])
  · have zero : σ.cnt = 0 := law.zeroOutsideWaits (by simp [st])
    obtain ⟨-, eq⟩ | ⟨-, eq⟩ := startHigh_cases c σ <;> rw [eq]
    · exact countLaw_of_cnt_zero c rfl nofun
    · exact countLaw_of_cnt_zero c zero (by simp [st])
  · cases x.line with
    | high => exact boundedWait_countLaw .awaitAck cnt (by rw [st]; rfl)
    | low => exact countLaw_of_polling c rfl
  · cases x.line with
    | low => exact boundedWait_countLaw .waitHigh cnt (by rw [st]; rfl)
    | high => exact countLaw_of_polling c rfl
  · cases x.line with
    | high => exact boundedWait_countLaw .measureHigh cnt (by rw [st]; rfl)
    | low =>
      rw [measureHigh]
      obtain ⟨-, eq⟩ | ⟨-, eq⟩ := appendBit_cases σ (classify c σ.measuredDuration) <;> rw [eq] <;>
        exact countLaw_of_cnt_zero c rfl nofun

/-- Settles O47: a step is a transition, and item 2 of the invariants bounds `cnt` where a wait fails. -/
theorem stepKeepsTheCountLaw : Obligations.StepKeepsTheCountLaw := by
  refine ⟨fun c => countLaw_of_cnt_zero c rfl nofun, fun s t safe law stepped => ?_⟩
  obtain ⟨-, rfl⟩ := step_next stepped
  exact blockStep_keeps_countLaw safe.invariants.countersBounded.1 law s.input

/-! ### The widths of the counters (R4) -/

/-- The width of a register is the least that holds its values. -/
theorem leastWidth_le_iff (n w : Nat) : leastWidth n ≤ w ↔ n ≤ 2 ^ w := by
  have one : 1 ≤ 2 ^ w := Nat.one_le_two_pow
  unfold leastWidth
  split
  · omega
  · have below : (n - 1).log2 < w ↔ n - 1 < 2 ^ w := Nat.log2_lt (by omega)
    omega

theorem le_two_pow_leastWidth (n : Nat) : n ≤ 2 ^ leastWidth n := (leastWidth_le_iff n _).1 le_rfl

/-- The timer stays below the ticks of the longer drive, which is the first one (R5). -/
theorem Inv.tmr_lt_tLowTicks {c : Config} {σ : Regs} (legal : c.Wf) (inv : Inv c σ) : σ.tmr < c.tLowTicks := by
  obtain ⟨-, lowTicks, -, highLeLow, -⟩ := legal
  obtain ⟨low, high, zero⟩ := inv.timerBounded
  cases st : σ.st with
  | startLow => exact low st
  | startHigh => exact (high st).trans_le highLeLow
  | idle | awaitAck | waitHigh | measureHigh | done | failed =>
    rw [zero (by rw [st]; rfl)]
    exact lowTicks

/-- Settles O48: each counter is below the number of values its width was made for. -/
theorem countersFitTheirRegisters : Obligations.CountersFitTheirRegisters := by
  constructor
  · intro c σ legal inv
    have polls : c.ceiling < 2 ^ c.wCnt := le_two_pow_leastWidth (c.ceiling + 1)
    obtain ⟨cnt, dur⟩ := inv.countersBounded
    exact ⟨(inv.tmr_lt_tLowTicks legal).trans_le (le_two_pow_leastWidth _), cnt.trans_lt polls, dur.trans_lt polls,
      by omega⟩
  · exact fun c => ⟨le_two_pow_leastWidth _, fun w => (leastWidth_le_iff _ w).2, le_two_pow_leastWidth (c.ceiling + 1),
      fun w => (leastWidth_le_iff (c.ceiling + 1) w).2⟩

end Sys2Proof.Machine
end

section
/-! PROOFS. Which operation a step runs (R5, R63, R70): what each row of the table writes, that the rows the inputs
select agree with the state operation, that a form laid down is what the next step runs, and the obligations O5, O6,
O7, O12, O16, O22 and O23 assembled from these facts. -/

namespace Sys2Proof.Machine

/-! ### What the rows write (R3, R71, R88, R105, R106) -/

theorem exec_writes_regs (i : Instr) (s : State) : ∃ r, exec i s = .next (s.setRegs r) := by
  cases i <;> exact ⟨_, rfl⟩

/-- Settles O23: no row touches anything but the registers, and the tick moves the inputs one place nearer. -/
theorem onlyRegistersAreWritten : Obligations.OnlyRegistersAreWritten := by
  refine ⟨exec_writes_regs, fun s t stepped => ?_⟩
  obtain ⟨-, rfl⟩ := step_next stepped
  exact ⟨rfl, rfl, rfl, State.inputAt_advance _⟩

/-- Settles O12: the three rows share the holding step, which writes back what it finds unless START is given. -/
theorem holdingOperations : Obligations.HoldingOperations := by
  intro i s row
  have holding : exec i s = .next (s.setRegs (holdingStep s.regs s.input.start)) := by
    obtain rfl | rfl | rfl := row <;> rfl
  rw [holding, holdingStep]
  split <;> rfl

/-- Settles O22: both rows are the fall of a pulse with their bit, and the fall is split at the last bit. -/
theorem symbolsAppendTheirBit : Obligations.SymbolsAppendTheirBit := by
  intro s lam h
  have zero : exec (.sym0 lam h) s = .next (s.setRegs (appendBit s.regs false)) := rfl
  have one : exec (.sym1 lam h) s = .next (s.setRegs (appendBit s.regs true)) := rfl
  rw [zero, one]
  refine ⟨fun more => ?_, fun last => ?_⟩
  · have notLast : s.regs.i ≠ 39 := fun last => by simp [last] at more
    rw [appendBit_of_ne_last notLast, appendBit_of_ne_last notLast]
    exact ⟨_, _, rfl, rfl, index_succ notLast, rfl, rfl, rfl⟩
  · rw [appendBit_of_last (Fin.ext last), appendBit_of_last (Fin.ext last)]
    exact ⟨rfl, rfl⟩

/-! ### The rows the inputs select (R63, R74) -/

/-- In every state the row START is the transition under `start = 1` (R72, R74). -/
theorem exec_start (s : State) : exec .start s = .next (s.setRegs (stateStep s.cfg s.regs true s.input.line)) := by
  cases holding : s.regs.st.isHolding with
  | true => rw [exec_start_of_holding holding, stateStep_holding holding, if_pos rfl]
  | false => simp [exec, execStart, holding, State.lineRead]

/-- In every state the row NOP is the transition under `start = 0` (R73). -/
theorem exec_nop (s : State) : exec .nop s = .next (s.setRegs (stateStep s.cfg s.regs false s.input.line)) := by
  cases holding : s.regs.st.isHolding with
  | true => simp [exec_nop_of_holding holding, stateStep_holding holding]
  | false => simp [exec, execNop, holding, State.lineRead]

/-- The row of a symbol is the fall of a pulse with the bit that the length of its High run classifies as (R89). -/
theorem exec_symbolOf (c : Config) (lam h : Nat) (s : State) :
    exec (symbolOf c lam h) s = .next (s.setRegs (appendBit s.regs (classify c h))) := by
  by_cases zero : h ≤ c.threshTicks
  · have bit : classify c h = false := decide_eq_false (Nat.not_lt.2 zero)
    rw [← sym0_eq_symbolOf zero, bit]
    rfl
  · have bit : classify c h = true := decide_eq_true (Nat.lt_of_not_le zero)
    rw [← sym1_eq_symbolOf (Nat.lt_of_not_le zero), bit]
    rfl

section SelectedRows
variable {s : State} (noReset : s.input.rst = false)
include noReset

theorem exec_selectOperation_of_noReset :
    exec (selectOperation s) s = .next (s.setRegs (stateStep s.cfg s.regs s.input.start s.input.line)) := by
  rw [exec_selectOperation, blockStep, noReset]
  rfl

theorem exec_command_eq_selected :
    exec (if s.input.start then .start else .nop) s = exec (selectOperation s) s := by
  rw [exec_selectOperation_of_noReset noReset]
  cases s.input.start with
  | true => exact exec_start s
  | false => exact exec_nop s

theorem exec_symbol_eq_selected (lam : Nat) (st : s.regs.st = .measureHigh) (low : s.input.line = .low) :
    exec (symbolOf s.cfg lam s.regs.measuredDuration) s = exec (selectOperation s) s := by
  rw [exec_symbolOf, exec_selectOperation_of_noReset noReset, stateStep, st, low]
  rfl

end SelectedRows

/-- Settles O16: a busy state makes the same transition for either value of `start`. -/
theorem commandRowsWhileBusy : Obligations.CommandRowsWhileBusy := by
  intro s busy
  have working : s.regs.st.isHolding = false := by simpa [busy_eq_not_holding] using busy
  refine ⟨?_, fun noReset => ?_⟩
  · rw [exec_start, exec_nop, stateStep_busy working true false]
  · rw [exec_start, exec_selectOperation_of_noReset noReset, stateStep_busy working true s.input.start]

/-- Settles O7: the selected row is the command of the input `start`, or the symbol of the measured duration. -/
theorem selectedRowAgreesWithStateOperation : Obligations.SelectedRowAgreesWithStateOperation := by
  intro s lam i selected
  unfold selectRow at selected
  split at selected
  · cases selected
  · next notReset =>
    have noReset : s.input.rst = false := Bool.eq_false_iff.2 notReset
    split at selected
    · cases selected
      exact (exec_command_eq_selected noReset).symm
    · split at selected
      · next fall =>
        cases selected
        exact (exec_symbol_eq_selected noReset lam fall.1 fall.2).symm
      · cases selected

/-! ### Forms laid down for the next step (R63, log entry 4) -/

theorem decode_opWord (s : State) : decode s.cfg s.opWord = .ok (selectOperation s) := by
  unfold State.opWord selectOperation
  split <;> rfl

@[simp] theorem stCode_stOfCode (code : BitVec 3) : stCode (stOfCode code) = code := by
  revert code
  decide

theorem selectOperation_withWord_state (s : State) (code : BitVec 3) :
    selectOperation (s.withWord (.state code)) = decodeStateCode code :=
  congrArg decodeStateCode (stCode_stOfCode code)

/-- A symbol is laid down as the registers and the input of its fall (R88). -/
theorem withWord_encode_symbolOf (s : State) {lam h : Nat} (low : LowRunOk s.cfg lam)
    (high : 1 ≤ h ∧ h ≤ s.cfg.ceiling + 1) :
    s.withWord (encode (symbolOf s.cfg lam h)) =
      { s.withInput { s.laidInput with rst := false, line := .low } with
        regs := { s.regs with st := .measureHigh, cnt := h - 1, dur := h - 1 } } := by
  have runs : symbolRuns (symbolOf s.cfg lam h) = some (lam, h) := by
    unfold symbolOf
    split <;> rfl
  rw [encode_symbolOf]
  simp only [State.withWord, decodeWire_pulseSamples low high, runs]

theorem exec_symbol_laid_down (s : State) {lam h : Nat} (low : LowRunOk s.cfg lam)
    (high : 1 ≤ h ∧ h ≤ s.cfg.ceiling + 1) :
    exec (symbolOf s.cfg lam h) (s.withWord (encode (symbolOf s.cfg lam h))) =
      exec (selectOperation (s.withWord (encode (symbolOf s.cfg lam h))))
        (s.withWord (encode (symbolOf s.cfg lam h))) := by
  obtain ⟨n, rfl⟩ : ∃ n, h = n + 1 := ⟨h - 1, by omega⟩
  rw [withWord_encode_symbolOf s low high]
  exact exec_symbol_eq_selected (s := { s.withInput { s.laidInput with rst := false, line := .low } with
    regs := { s.regs with st := .measureHigh, cnt := n, dur := n } }) rfl lam rfl rfl

/-- Whatever well-formed operation is laid down, it has the effect of the operation the next step selects. -/
theorem exec_laid_down (s : State) (i : Instr) (legal : s.cfg.Wf) (wf : i.Wf s.cfg) :
    exec i (s.withWord (encode i)) = exec (selectOperation (s.withWord (encode i))) (s.withWord (encode i)) := by
  cases i with
  | idle | startLow | startHigh | awaitAck | waitHigh | measureHigh | done | failed =>
    rw [encode, selectOperation_withWord_state]
    rfl
  | start => exact exec_command_eq_selected (s := s.withWord (encode .start)) rfl
  | nop => exact exec_command_eq_selected (s := s.withWord (encode .nop)) rfl
  | rst => rfl
  | sym0 lam h =>
    obtain ⟨low, some, zero⟩ : LowRunOk s.cfg lam ∧ 1 ≤ h ∧ h ≤ s.cfg.threshTicks := wf
    obtain ⟨-, -, -, -, threshold⟩ := legal
    rw [sym0_eq_symbolOf zero]
    exact exec_symbol_laid_down s low ⟨some, by omega⟩
  | sym1 lam h =>
    obtain ⟨low, one, within⟩ : LowRunOk s.cfg lam ∧ s.cfg.threshTicks < h ∧ h ≤ s.cfg.ceiling + 1 := wf
    rw [sym1_eq_symbolOf one]
    exact exec_symbol_laid_down s low ⟨by omega, within⟩

theorem withWord_cfg (s : State) (w : OpWord) : (s.withWord w).cfg = s.cfg := by
  cases w with
  | state | command | reset => rfl
  | wire samples =>
    simp only [State.withWord]
    split
    · rfl
    · split <;> rfl

/-- Settles O6: the decoder reads the selected operation, and an operation laid down acts as the selected one. -/
theorem stepRunsTheDecodedOperation : Obligations.StepRunsTheDecodedOperation := by
  refine ⟨fun s i legal decoded => ?_, fun s => ⟨_, decode_opWord s⟩, fun s i legal wf => ?_⟩
  · cases (decode_opWord s).symm.trans decoded
    exact if_pos legal
  · rw [exec_laid_down s i legal wf]
    exact if_pos (by rw [withWord_cfg]; exact legal)

/-! ### The configuration (R5) -/

/-- Settles O5: `step` tests the constraints first and is total after that; the rest is arithmetic of R5 and R89. -/
theorem illFormedConfigurationIsRefused : Obligations.IllFormedConfigurationIsRefused := by
  refine ⟨fun s => ⟨fun refused legal => ?_, fun illegal => if_neg illegal⟩,
    fun s legal => ⟨_, step_eq_blockStep legal⟩, fun p => ?_, fun c => ⟨?_, fun fits => ?_⟩⟩
  · simp [step_eq_blockStep (s := s) legal] at refused
  · simp only [Config.Wf, Config.default, Config.tLowTicks, Config.tHighTicks, Config.threshTicks]
    omega
  · rintro ⟨d, -, read, one⟩
    have exceeds : c.threshTicks < d := of_decide_eq_true one
    omega
  · exact ⟨c.ceiling + 1, by omega, le_rfl, decide_eq_true (Nat.lt_succ_of_le fits)⟩

end Sys2Proof.Machine
end

section
/-! PROOFS. What single steps can do (R12, R27, R32, R36, R75, R90): the edges of the state graph, which steps write the
frame and the index, what a step reads, and the obligations O24, O26, O27, O28, O29 and O30 assembled from these
facts. -/

namespace Sys2Proof.Machine

/-! ### The state graph (R75) -/

theorem blockStep_of_noReset (c : Config) (σ : Regs) {x : Input} (noReset : x.rst = false) :
    blockStep c σ x = stateStep c σ x.start x.line := by
  simp [blockStep, noReset]

theorem stateStep_st_of_holding (c : Config) {σ : Regs} (holding : σ.st.isHolding = true) (start : Bool)
    (line : Level) :
    (stateStep c σ start line).st = σ.st ∨ (stateStep c σ start line).st = .startLow := by
  rw [stateStep_holding holding]
  split
  · exact .inr rfl
  · exact .inl rfl

/-- Which bit the fall of a pulse appends decides where it leads (R88). -/
theorem appendBit_st_by_index (σ : Regs) (b : Bool) :
    ((appendBit σ b).st = .waitHigh ∧ σ.i.val < 39) ∨ ((appendBit σ b).st = .done ∧ σ.i.val = 39) := by
  obtain ⟨last, eq⟩ | ⟨more, eq⟩ := appendBit_cases σ b
  · exact .inr ⟨by rw [eq], by rw [last]; rfl⟩
  · exact .inl ⟨by rw [eq], by have := index_succ more; omega⟩

/-- Settles O24: state by state, each operation's own two or three ways on. -/
theorem stateGraph : Obligations.StateGraph := by
  intro s t noReset stepped
  obtain ⟨-, rfl⟩ := step_next stepped
  simp only [State.advance_regs, State.setRegs_regs, blockStep_of_noReset s.cfg s.regs noReset]
  cases st : s.regs.st with
  | idle | done | failed =>
    have goes := stateStep_st_of_holding s.cfg (by rw [st]; rfl) s.input.start s.input.line
    rwa [st] at goes
  | startLow =>
    simpa only [stateStep, st] using startLow_st s.cfg st
  | startHigh =>
    simpa only [stateStep, st] using startHigh_st s.cfg st
  | awaitAck =>
    simpa only [stateStep, st] using or_rotate.1 (awaitAck_st s.cfg st s.input.line)
  | waitHigh =>
    simpa only [stateStep, st] using or_rotate.1 (waitHigh_st s.cfg st s.input.line)
  | measureHigh =>
    simp only [stateStep, st]
    cases s.input.line with
    | high =>
      obtain fails | stays := boundedWait_st s.cfg s.regs .measureHigh _
      · exact .inr (.inl fails)
      · exact .inl (stays.trans st)
    | low => exact .inr (.inr (appendBit_st_by_index s.regs _))

/-! ### Which steps write the frame and the index (R12, R36, R90) -/

/-- A transition that writes neither the frame nor the index, and does not enter DONE. -/
abbrev KeepsBits (σ τ : Regs) : Prop := τ.frame = σ.frame ∧ τ.i = σ.i ∧ (τ.st = .done → σ.st = .done)

theorem boundedWait_keepsBits (c : Config) {σ stay : Regs} (p : Phase) (stays : KeepsBits σ stay) :
    KeepsBits σ (boundedWait c σ p stay) := by
  obtain ⟨-, eq⟩ | ⟨-, eq⟩ := boundedWait_cases c σ p stay <;> rw [eq]
  · exact ⟨rfl, rfl, nofun⟩
  · exact stays

/-- The frame and the index are cleared by reset and by an accepted START, written by the fall of a pulse, and kept by
every other transition. -/
theorem blockStep_bits_cases (c : Config) (σ : Regs) (x : Input) :
    ((x.rst = true ∨ (σ.busy = false ∧ x.start = true)) ∧ (blockStep c σ x).frame = 0#40 ∧
      (blockStep c σ x).i = 0 ∧ (blockStep c σ x).st ≠ .done) ∨
    (x.rst = false ∧ σ.st = .measureHigh ∧ x.line = .low ∧
      blockStep c σ x = appendBit σ (classify c (σ.dur + 1))) ∨
    KeepsBits σ (blockStep c σ x) := by
  obtain ⟨rst, eq⟩ | ⟨-, holding, start, eq⟩ | ⟨-, -, -, eq⟩ | ⟨-, st, eq⟩ | ⟨-, st, eq⟩ | ⟨-, st, eq⟩ | ⟨-, st, eq⟩ |
    ⟨noReset, st, eq⟩ := blockStep_cases c σ x <;> rw [eq]
  · exact .inl ⟨.inl rst, rfl, rfl, nofun⟩
  · exact .inl ⟨.inr ⟨by simp [busy_eq_not_holding, holding], start⟩, rfl, rfl, nofun⟩
  · exact .inr (.inr ⟨rfl, rfl, id⟩)
  · obtain ⟨-, eq⟩ | ⟨-, eq⟩ := startLow_cases c σ <;> rw [eq]
    · exact .inr (.inr ⟨rfl, rfl, nofun⟩)
    · exact .inr (.inr ⟨rfl, rfl, id⟩)
  · obtain ⟨-, eq⟩ | ⟨-, eq⟩ := startHigh_cases c σ <;> rw [eq]
    · exact .inr (.inr ⟨rfl, rfl, nofun⟩)
    · exact .inr (.inr ⟨rfl, rfl, id⟩)
  · cases x.line with
    | high => exact .inr (.inr (boundedWait_keepsBits c _ ⟨rfl, rfl, id⟩))
    | low => exact .inr (.inr ⟨rfl, rfl, nofun⟩)
  · cases x.line with
    | low => exact .inr (.inr (boundedWait_keepsBits c _ ⟨rfl, rfl, id⟩))
    | high => exact .inr (.inr ⟨rfl, rfl, nofun⟩)
  · cases line : x.line with
    | high => exact .inr (.inr (boundedWait_keepsBits c _ ⟨rfl, rfl, id⟩))
    | low => exact .inr (.inl ⟨noReset, st, rfl, rfl⟩)

/-- Settles O26: of the transitions only the fall of a pulse enters DONE, and only at index 39. -/
theorem doneNeedsTheFortiethBit : Obligations.DoneNeedsTheFortiethBit := by
  intro s t stepped done before
  obtain ⟨-, rfl⟩ := step_next stepped
  simp only [State.advance_regs, State.setRegs_regs] at done ⊢
  obtain ⟨-, -, -, notDone⟩ | ⟨-, st, low, eq⟩ | ⟨-, -, kept⟩ := blockStep_bits_cases s.cfg s.regs s.input
  · exact absurd done notDone
  · rw [eq] at done ⊢
    obtain ⟨last, eq⟩ | ⟨-, eq⟩ := appendBit_cases s.regs (classify s.cfg (s.regs.dur + 1)) <;> rw [eq] at done ⊢
    · exact ⟨st, last, low, last, rfl⟩
    · cases done
  · exact absurd (kept done) before

theorem appendBit_frame (σ : Regs) (b : Bool) : (appendBit σ b).frame = append σ.frame b := by
  obtain ⟨-, eq⟩ | ⟨-, eq⟩ := appendBit_cases σ b <;> rw [eq]

/-- Settles O27: a transition that changes the frame is one that clears it or the fall of a pulse. -/
theorem frameIsWrittenOnlyByAppend : Obligations.FrameIsWrittenOnlyByAppend := by
  intro s t stepped changed
  obtain ⟨-, rfl⟩ := step_next stepped
  obtain ⟨cleared, frame, -⟩ | ⟨noReset, st, low, eq⟩ | ⟨kept, -⟩ := blockStep_bits_cases s.cfg s.regs s.input
  · exact .inl ⟨frame, cleared⟩
  · exact .inr ⟨noReset, st, low, (congrArg Regs.frame eq).trans (appendBit_frame ..)⟩
  · exact absurd kept changed

/-- Settles O28: a transition that changes the index is one that clears it or a fall that is not the last. -/
theorem indexNeverWraps : Obligations.IndexNeverWraps := by
  intro s t stepped changed
  obtain ⟨-, rfl⟩ := step_next stepped
  simp only [State.advance_regs, State.setRegs_regs] at changed ⊢
  obtain ⟨cleared, -, index, -⟩ | ⟨noReset, st, low, eq⟩ | ⟨-, kept, -⟩ := blockStep_bits_cases s.cfg s.regs s.input
  · exact .inl ⟨index, cleared⟩
  · rw [eq] at changed ⊢
    obtain ⟨-, eq⟩ | ⟨more, eq⟩ := appendBit_cases s.regs (classify s.cfg (s.regs.dur + 1)) <;> rw [eq] at changed ⊢
    · exact absurd rfl changed
    · exact .inr ⟨index_succ more, noReset, st, low⟩
  · exact absurd kept changed

/-! ### What a step reads (R27, R32) -/

theorem blockStep_line_of_not_polling (c : Config) {σ : Regs} (notPolling : σ.st.isPolling = false) (x : Input)
    (level : Level) : blockStep c σ { x with line := level } = blockStep c σ x := by
  unfold blockStep stateStep
  cases st : σ.st with
  | idle | startLow | startHigh | done | failed => rfl
  | awaitAck | waitHigh | measureHigh => simp [St.isPolling, st] at notPolling

/-- Settles O29: inputs that differ in the line alone make the same transition outside the polling states. -/
theorem lineIsReadOnlyWhenPolling : Obligations.LineIsReadOnlyWhenPolling := by
  intro s x xs level notAwaitAck notWaitHigh notMeasureHigh
  have notPolling : s.regs.st.isPolling = false := by
    cases st : s.regs.st <;> simp_all [St.isPolling]
  exact step_congr_input s xs (blockStep_line_of_not_polling s.cfg notPolling x level)

/-- An accepted START leaves nothing of the registers before it, and neither does a reset (R27). -/
theorem blockStep_of_accepted (c : Config) {σ : Regs} {x : Input} (free : σ.busy = false) (start : x.start = true) :
    blockStep c σ x = if x.rst then Regs.reset else ⟨.startLow, 0, 0#40, 0, 0, 0, .none⟩ := by
  have holding : σ.st.isHolding = true := by simpa [busy_eq_not_holding] using free
  rw [blockStep, stateStep_holding holding, start]
  rfl

/-- Settles O30: the transition under START is the same from both register vectors. -/
theorem earlierExchangesHaveNoEffect : Obligations.EarlierExchangesHaveNoEffect := by
  intro s r free free' start
  by_cases legal : s.cfg.Wf
  · rw [step_eq_blockStep legal, step_eq_blockStep (s := s.setRegs r) legal, blockStep_of_accepted s.cfg free start]
    simp only [State.setRegs_cfg, State.setRegs_regs, State.setRegs_input, State.setRegs_setRegs,
      blockStep_of_accepted s.cfg free' start]
  · simp [step, legal]

end Sys2Proof.Machine
end

section
/-! PROOFS. The result and STATUS (R58, R107, R110): the values STATUS takes, the result view as the content of the
ports, that a quiet host keeps both, and the obligations O33, O35 and O37 assembled from these facts. -/

namespace Sys2Proof.Machine

/-! ### The values of STATUS (R58) -/

/-- The table of R58: nine single values and two runs of forty, one value per bit index. -/
def statusValues : List (BitVec 16) :=
  [0x0000#16, 0x8800#16, 0x9000#16, 0x9800#16, 0xA000#16, 0xA800#16, 0x7200#16, 0x7600#16, 0x7C80#16] ++
    (List.range 40).map (fun k => 0x7D40#16 + BitVec.ofNat 16 k) ++
    (List.range 40).map (fun k => 0x7DC0#16 + BitVec.ofNat 16 k)

theorem mem_statusValues_iff (v : BitVec 16) : v ∈ statusValues ↔
    v ∈ [0x0000#16, 0x8800#16, 0x9000#16, 0x9800#16, 0xA000#16, 0xA800#16, 0x7200#16, 0x7600#16, 0x7C80#16] ∨
    (∃ i : Fin 40, 0x7D40#16 + BitVec.ofNat 16 i.val = v) ∨ (∃ i : Fin 40, 0x7DC0#16 + BitVec.ofNat 16 i.val = v) := by
  simp only [statusValues, List.mem_append, List.mem_map, List.mem_range, or_assoc, Fin.exists_iff, exists_prop]

theorem statusValues_nodup : statusValues.Nodup := by decide

/-- While an exchange is under way STATUS shows the state and nothing else. -/
theorem Regs.status_of_busy {σ : Regs} (busy : σ.busy = true) :
    σ.status = packStatus true false (stCode σ.st) 0#2 0#2 false 0#6 := by
  have notDone : σ.done = false := by simpa [busy] using σ.not_busy_and_done
  have noResult : σ.res = .none := σ.res_eq_none_iff.2 notDone
  have notFailed : σ.st ≠ .failed := fun failed => by simp [Regs.busy, failed] at busy
  have hidden : σ.idxValid = false := Bool.eq_false_iff.2 fun shown => notFailed (σ.idxValid_iff.1 shown).1
  rw [Regs.status, busy, notDone, noResult, phaseField_of_ne_failed notFailed, hidden, idxField_of_not_idxValid hidden]
  rfl

theorem Regs.status_of_failed {σ : Regs} (st : σ.st = .failed) :
    σ.status =
      packStatus false true (stCode .failed) (resCode .timeout) (phaseCode σ.fphase) σ.idxValid σ.idxField := by
  obtain ⟨notBusy, done, timeout⟩ := flags_of_failed st
  rw [Regs.status, notBusy, done, timeout, phaseField_of_failed st, st]

/-- STATUS after a timeout of one of the two waits inside `ReadBit(i)`. -/
theorem Regs.status_of_failed_bit {σ : Regs} (st : σ.st = .failed)
    (bitWait : σ.fphase = .waitHigh ∨ σ.fphase = .measureHigh) :
    σ.status = packStatus false true (stCode .failed) (resCode .timeout) (phaseCode σ.fphase) true
      (BitVec.ofNat 6 σ.i.val) := by
  have shown : σ.idxValid = true := σ.idxValid_iff.2 ⟨st, bitWait⟩
  rw [status_of_failed st, Regs.idxField, if_pos shown, shown]

theorem Regs.status_of_failed_waitHigh {σ : Regs} (st : σ.st = .failed) (phase : σ.fphase = .waitHigh) :
    σ.status = 0x7D40#16 + BitVec.ofNat 16 σ.i.val := by
  rw [status_of_failed_bit st (.inl phase), phase]
  generalize σ.i = i
  revert i
  decide

theorem Regs.status_of_failed_measureHigh {σ : Regs} (st : σ.st = .failed) (phase : σ.fphase = .measureHigh) :
    σ.status = 0x7DC0#16 + BitVec.ofNat 16 σ.i.val := by
  rw [status_of_failed_bit st (.inr phase), phase]
  generalize σ.i = i
  revert i
  decide

theorem Regs.status_of_failed_awaitAck {σ : Regs} (st : σ.st = .failed) (phase : σ.fphase = .awaitAck) :
    σ.status = 0x7C80#16 := by
  have hidden : σ.idxValid = false := by simp [Regs.idxValid, st, phase]
  rw [status_of_failed st, hidden, idxField_of_not_idxValid hidden, phase]
  decide

/-- In FAILED the phase is that of one of the three waits (R24 item 6). -/
theorem Inv.phase_of_failed {c : Config} {σ : Regs} (inv : Inv c σ) (st : σ.st = .failed) :
    σ.fphase = .awaitAck ∨ σ.fphase = .waitHigh ∨ σ.fphase = .measureHigh := by
  have some : σ.fphase ≠ .none := inv.phaseOnlyInFailed.2 st
  cases phase : σ.fphase <;> simp_all

theorem Inv.status_mem_statusValues {c : Config} {σ : Regs} (inv : Inv c σ) : σ.status ∈ statusValues := by
  rw [mem_statusValues_iff]
  cases st : σ.st with
  | idle => exact .inl (by rw [Regs.status_of_idle st]; decide)
  | startLow | startHigh | awaitAck | waitHigh | measureHigh =>
    exact .inl (by rw [Regs.status_of_busy (by simp [Regs.busy, st]), st]; decide)
  | done =>
    rw [Regs.status_of_done st, (Regs.flags_of_done st).2.2]
    exact .inl (by cases valid σ.frame <;> decide)
  | failed =>
    obtain phase | phase | phase := inv.phase_of_failed st
    · exact .inl (by rw [Regs.status_of_failed_awaitAck st phase]; decide)
    · exact .inr (.inl ⟨σ.i, (Regs.status_of_failed_waitHigh st phase).symm⟩)
    · exact .inr (.inr ⟨σ.i, (Regs.status_of_failed_measureHigh st phase).symm⟩)

/-- Every value of the table is shown by some registers that meet the invariants. -/
theorem exists_inv_of_mem_statusValues {c : Config} (legal : c.Wf) {v : BitVec 16} (listed : v ∈ statusValues) :
    ∃ σ, Inv c σ ∧ σ.status = v := by
  obtain ⟨-, lowTicks, highTicks, -⟩ := legal
  have none : 0 ≤ c.ceiling := Nat.zero_le _
  obtain single | ⟨i, rfl⟩ | ⟨i, rfl⟩ := (mem_statusValues_iff v).1 listed
  · simp only [List.mem_cons, List.not_mem_nil, or_false] at single
    obtain rfl | rfl | rfl | rfl | rfl | rfl | rfl | rfl | rfl := single
    · exact ⟨⟨.idle, 0, 0#40, 0, 0, 0, .none⟩, inv_iff.2 ⟨none, rfl, rfl, rfl, rfl⟩, by decide⟩
    · exact ⟨⟨.startLow, 0, 0#40, 0, 0, 0, .none⟩, inv_iff.2 ⟨none, rfl, rfl, lowTicks, rfl, rfl⟩, by decide⟩
    · exact ⟨⟨.startHigh, 0, 0#40, 0, 0, 0, .none⟩, inv_iff.2 ⟨none, rfl, rfl, highTicks, rfl, rfl⟩, by decide⟩
    · exact ⟨⟨.awaitAck, 0, 0#40, 0, 0, 0, .none⟩, inv_iff.2 ⟨none, rfl, rfl, rfl, rfl, rfl⟩, by decide⟩
    · exact ⟨⟨.waitHigh, 0, 0#40, 0, 0, 0, .none⟩, inv_iff.2 ⟨none, Nat.one_pos, rfl, rfl, rfl⟩, by decide⟩
    · exact ⟨⟨.measureHigh, 0, 0#40, 0, 0, 0, .none⟩, inv_iff.2 ⟨none, Nat.one_pos, rfl, rfl, rfl⟩, by decide⟩
    · exact ⟨⟨.done, 39, 0#40, 0, 0, 0, .none⟩, inv_iff.2 ⟨none, rfl, rfl, rfl, rfl, rfl⟩, by decide⟩
    · exact ⟨⟨.done, 39, 1#40, 0, 0, 0, .none⟩, inv_iff.2 ⟨none, rfl, rfl, rfl, rfl, rfl⟩, by decide⟩
    · exact ⟨⟨.failed, 0, 0#40, 0, 0, 0, .awaitAck⟩, inv_iff.2 ⟨none, rfl, .inl ⟨rfl, rfl, rfl⟩⟩, by decide⟩
  · exact ⟨⟨.failed, i, 0#40, 0, 0, 0, .waitHigh⟩,
      inv_iff.2 ⟨none, rfl, .inr (.inl ⟨rfl, Nat.two_pow_pos _, rfl⟩)⟩, Regs.status_of_failed_waitHigh rfl rfl⟩
  · exact ⟨⟨.failed, i, 0#40, 0, c.ceiling, c.ceiling, .measureHigh⟩,
      inv_iff.2 ⟨le_rfl, rfl, .inr (.inr ⟨rfl, Nat.two_pow_pos _, rfl, rfl⟩)⟩,
      Regs.status_of_failed_measureHigh rfl rfl⟩

/-- Settles O33: the table is finite data, and the invariants decide which states show which of its values. -/
theorem statusTakesTheListedValues : Obligations.StatusTakesTheListedValues := fun _ legal =>
  ⟨rfl, statusValues_nodup, fun _ => ⟨exists_inv_of_mem_statusValues legal,
    fun ⟨_, inv, shown⟩ => shown ▸ inv.status_mem_statusValues⟩⟩

/-! ### The result view as the content of the ports (R107) -/

/-- The ports that carry a result: the tag, the phase, the two index fields and the two values. -/
abbrev ResultPorts := Res × BitVec 2 × Bool × BitVec 6 × Tenths × Tenths

/-- The ports of a register vector that carry its result. -/
def Regs.resultPorts (σ : Regs) : ResultPorts :=
  (σ.res, σ.phaseField, σ.idxValid, σ.idxField, σ.tempX10, σ.humX10)

/-- What the index fields show of the bit index of a timeout. -/
def bitIndexPorts : Option (Fin 40) → Bool × BitVec 6
  | .none => (false, 0#6)
  | some i => (true, BitVec.ofNat 6 i.val)

/-- What the ports show of a result. -/
def ResultView.ports : ResultView → ResultPorts
  | .none => (.none, 0#2, false, 0#6, 0#12, 0#12)
  | .reading t h => (.reading, 0#2, false, 0#6, t, h)
  | .failure .checksumMismatch => (.checksumMismatch, 0#2, false, 0#6, 0#12, 0#12)
  | .failure (.timeout p idx) => (.timeout, phaseCode p, (bitIndexPorts idx).1, (bitIndexPorts idx).2, 0#12, 0#12)

theorem phaseCode_injective : Function.Injective phaseCode := by
  intro p q
  cases p <;> cases q <;> decide

/-- Six bits tell the bit indices apart, and the flag a bit index from none. -/
theorem bitIndexPorts_injective : Function.Injective bitIndexPorts := by
  rintro (_ | i) (_ | j) same <;> simp only [bitIndexPorts, Prod.mk.injEq, Bool.false_eq_true, Bool.true_eq_false,
    false_and, true_and] at same
  · rfl
  · have values : i.val % 2 ^ 6 = j.val % 2 ^ 6 := congrArg BitVec.toNat same
    exact congrArg some (by omega)

/-- The tag tells the four kinds of results apart, and the other ports those of one kind. -/
theorem ResultView.ports_injective : Function.Injective ResultView.ports := by
  rintro (_ | ⟨t, h⟩ | ⟨p, i⟩ | _) (_ | ⟨t', h'⟩ | ⟨q, j⟩ | _) same <;> simp only [ResultView.ports, Prod.mk.injEq,
    reduceCtorEq, false_and, true_and] at same
  · rfl
  · rw [same.1, same.2]
  · obtain ⟨phases, shown, index, -⟩ := same
    rw [phaseCode_injective phases, bitIndexPorts_injective (Prod.ext shown index)]
  · rfl

theorem Regs.resultPorts_eq (σ : Regs) : σ.resultPorts = σ.result.ports := by
  unfold Regs.resultPorts Regs.tempX10 Regs.humX10 Regs.idxField Regs.phaseField Regs.idxValid Regs.res Regs.result
    Regs.bitIndex
  cases st : σ.st with
  | idle | startLow | startHigh | awaitAck | waitHigh | measureHigh => rfl
  | failed => cases phase : σ.fphase <;> rfl
  | done =>
    cases ok : valid σ.frame with
    | true => simp [decodeFrame_of_valid ok, ResultView.ports]
    | false => simp [decodeFrame_of_not_valid (Bool.eq_false_iff.1 ok), ResultView.ports]

/-- Settles O35: the cases are those of the state and of the phase, and both sides of the equivalence are equality of
the ports. -/
theorem resultViewCases : Obligations.ResultViewCases := by
  refine ⟨fun c σ inv => ⟨fun notDone notFailed => ?_, fun st ok => ?_, fun st bad => ?_, fun st => ?_⟩, fun σ τ => ?_⟩
  · unfold Regs.result
    cases st : σ.st <;> simp_all
  · simp [Regs.result, st, decodeFrame_of_valid ok]
  · simp [Regs.result, st, decodeFrame_of_not_valid (Bool.eq_false_iff.1 bad)]
  · have result : σ.result = .failure (.timeout σ.fphase σ.bitIndex) := by rw [Regs.result, st]
    obtain phase | phase | phase := inv.phase_of_failed st <;> simp [result, Regs.bitIndex, phase]
  · rw [← ResultView.ports_injective.eq_iff, ← σ.resultPorts_eq, ← τ.resultPorts_eq]
    simp only [Regs.resultPorts, Prod.mk.injEq]

/-! ### Stability (R110) -/

/-- The inputs ahead of a state, by their places. -/
theorem State.forall_mem_inputsAhead {s : State} {n : Nat} {P : Input → Prop} (h : ∀ k, k < n → P (s.inputAt k)) :
    ∀ x ∈ s.inputsAhead n, P x :=
  List.forall_mem_map.2 fun k inRange => h k (List.mem_range.1 inRange)

theorem blockStep_holding_quiet (c : Config) {σ : Regs} {x : Input} (holding : σ.st.isHolding = true)
    (quiet : Quiet x) : blockStep c σ x = σ := by
  simp [blockStep_of_noReset c σ quiet.1, stateStep_holding holding, quiet.2]

/-- In a holding state a host that gives neither reset nor START changes nothing (R73). -/
theorem runBlock_holding_quiet (c : Config) {σ : Regs} (holding : σ.st.isHolding = true) {xs : List Input}
    (quiet : ∀ x ∈ xs, Quiet x) : runBlock c σ xs = σ := by
  induction xs with
  | nil => rfl
  | cons x xs ih =>
    obtain ⟨first, rest⟩ := List.forall_mem_cons.1 quiet
    rw [runBlock, blockStep_holding_quiet c holding first, ih rest]

/-- Settles O37: the inputs ahead are quiet, so the run ends on the registers it began with. -/
theorem resultIsStable : Obligations.ResultIsStable := by
  intro s n legal free quiet
  have holding : s.regs.st.isHolding = true := by simpa [busy_eq_not_holding] using free
  have stays := runBlock_holding_quiet s.cfg holding (State.forall_mem_inputsAhead (P := Quiet) quiet)
  exact ⟨_, core_run_eq n s legal, stays, congrArg Regs.outputs stays⟩

end Sys2Proof.Machine
end

section
/-! PROOFS. How long waits and exchanges last (R76, R85): the moves of the block without reset, the steps an exchange
has left at most and the steps it needs at least, and the obligations O52, O49 and O50 assembled from these facts. -/

namespace Sys2Proof.Machine

/-! ### The moves of the block without reset -/

/-- Everything a transition without reset can do to the registers. -/
inductive Moves (c : Config) (σ : Regs) : Regs → Prop
  | begins (holding : σ.st.isHolding = true) : Moves c σ (startExchange σ)
  | holds (holding : σ.st.isHolding = true) : Moves c σ σ
  | drivesLow (st : σ.st = .startLow) (more : σ.tmr + 1 ≠ c.tLowTicks) : Moves c σ { σ with tmr := σ.tmr + 1 }
  | endsLow (st : σ.st = .startLow) (last : σ.tmr + 1 = c.tLowTicks) : Moves c σ { σ with st := .startHigh, tmr := 0 }
  | drivesHigh (st : σ.st = .startHigh) (more : σ.tmr + 1 ≠ c.tHighTicks) : Moves c σ { σ with tmr := σ.tmr + 1 }
  | endsHigh (st : σ.st = .startHigh) (last : σ.tmr + 1 = c.tHighTicks) :
      Moves c σ { σ with st := .awaitAck, tmr := 0, cnt := 0 }
  | waits (polling : σ.st.isPolling = true) (within : σ.cnt + 1 ≤ c.ceiling) : Moves c σ (σ.waited 1)
  | fails (p : Phase) (polling : σ.st.isPolling = true) (past : σ.cnt + 1 > c.ceiling) : Moves c σ (raiseTimeout σ p)
  | acks (st : σ.st = .awaitAck) : Moves c σ { σ with st := .waitHigh, cnt := 0 }
  | rises (st : σ.st = .waitHigh) : Moves c σ { σ with st := .measureHigh, cnt := 0, dur := 0 }
  | falls (b : Bool) (st : σ.st = .measureHigh) (more : σ.i ≠ 39) :
      Moves c σ { σ with st := .waitHigh, i := σ.i + 1, frame := append σ.frame b, cnt := 0, dur := 0 }
  | finishes (b : Bool) (st : σ.st = .measureHigh) (last : σ.i = 39) :
      Moves c σ { σ with st := .done, frame := append σ.frame b, cnt := 0, dur := 0 }

theorem moves_of_waitsOut {c : Config} {σ : Regs} {x : Input} {p : Phase} (wait : WaitsOut σ.st x.line p)
    (noReset : x.rst = false) : Moves c σ (blockStep c σ x) := by
  rw [blockStep_of_waitsOut c wait noReset]
  obtain ⟨past, eq⟩ | ⟨within, eq⟩ := boundedWait_cases c σ p (σ.waited 1) <;> rw [eq]
  · exact .fails p wait.isPolling past
  · exact .waits wait.isPolling within

theorem moves_blockStep (c : Config) (σ : Regs) {x : Input} (noReset : x.rst = false) :
    Moves c σ (blockStep c σ x) := by
  obtain ⟨reset, -⟩ | ⟨-, holding, -, eq⟩ | ⟨-, holding, -, eq⟩ | ⟨-, st, eq⟩ | ⟨-, st, eq⟩ | ⟨-, st, eq⟩ |
    ⟨-, st, eq⟩ | ⟨-, st, eq⟩ := blockStep_cases c σ x
  · simp [noReset] at reset
  · exact eq ▸ .begins holding
  · rw [eq]
    exact .holds holding
  · obtain ⟨last, eq'⟩ | ⟨more, eq'⟩ := startLow_cases c σ <;> rw [eq, eq']
    · exact .endsLow st last
    · exact .drivesLow st more
  · obtain ⟨last, eq'⟩ | ⟨more, eq'⟩ := startHigh_cases c σ <;> rw [eq, eq']
    · exact .endsHigh st last
    · exact .drivesHigh st more
  · cases line : x.line with
    | high => exact moves_of_waitsOut (by rw [st, line]; exact .awaitAck) noReset
    | low => rw [eq, line]; exact .acks st
  · cases line : x.line with
    | low => exact moves_of_waitsOut (by rw [st, line]; exact .waitHigh) noReset
    | high => rw [eq, line]; exact .rises st
  · cases line : x.line with
    | high => exact moves_of_waitsOut (by rw [st, line]; exact .measureHigh) noReset
    | low =>
      rw [eq, line, measureHigh]
      obtain ⟨last, eq'⟩ | ⟨more, eq'⟩ := appendBit_cases σ (classify c σ.measuredDuration) <;> rw [eq']
      · exact .finishes _ st last
      · exact .falls _ st more

/-! ### Reaching a goal (R76, R85) -/

/-- A rank that falls with every step as long as `Q` lasts bounds the steps until `Goal` is reached. -/
theorem core_run_reaches {c : Config} {Q Goal : Regs → Prop} (rank : Regs → Nat)
    (progress : ∀ σ x, x.rst = false → Q σ →
      Goal (blockStep c σ x) ∨ (Q (blockStep c σ x) ∧ rank (blockStep c σ x) < rank σ))
    (positive : ∀ σ, Q σ → 0 < rank σ) {n : Nat} {s : State} (legal : s.cfg.Wf) (cfg : s.cfg = c) (inside : Q s.regs)
    (bound : rank s.regs ≤ n) (noReset : ∀ k, k < n → (s.inputAt k).rst = false) :
    ∃ m t, 1 ≤ m ∧ m ≤ n ∧ Sys2Proof.core.run m s = .next t ∧ Goal t.regs := by
  induction n generalizing s with
  | zero => exact absurd (positive _ inside) (by omega)
  | succ n ih =>
    subst cfg
    obtain goal | ⟨inside', lower⟩ := progress s.regs s.input (noReset 0 (by omega)) inside
    · exact ⟨1, _, le_rfl, by omega, core_run_succ legal 0, goal⟩
    · have bound' : rank (blockStep s.cfg s.regs s.input) ≤ n := by omega
      obtain ⟨m, t, some, within, run, goal⟩ :=
        ih (s := (s.setRegs (blockStep s.cfg s.regs s.input)).advance) legal rfl inside' bound' fun k below => by
          rw [State.inputAt_advance]
          exact noReset (k + 1) (by omega)
      exact ⟨m + 1, t, by omega, by omega, (core_run_succ legal m).trans run, goal⟩

theorem St.isPolling_iff (st : St) : st.isPolling = true ↔ st = .awaitAck ∨ st = .waitHigh ∨ st = .measureHigh := by
  cases st <;> decide

/-- A transition in a polling state leaves it, or counts one more poll of a wait within the ceiling. -/
theorem Moves.of_polling {c : Config} {σ τ : Regs} (move : Moves c σ τ) (polling : σ.st.isPolling = true) :
    τ.st ≠ σ.st ∨ (τ = σ.waited 1 ∧ σ.cnt + 1 ≤ c.ceiling) := by
  cases move with
  | begins holding | holds holding => cases st : σ.st <;> simp [st, St.isHolding, St.isPolling] at holding polling
  | drivesLow st | endsLow st | drivesHigh st | endsHigh st => simp [st, St.isPolling] at polling
  | waits _ within => exact .inr ⟨rfl, within⟩
  | fails p _ _ => exact .inl fun (same : .failed = σ.st) => by simp [← same, St.isPolling] at polling
  | acks st | rises st | falls _ st _ | finishes _ st _ => exact .inl (by simp [st])

/-- Settles O52: the polls left of the wait are the rank. -/
theorem everyWaitIsBounded : Obligations.EveryWaitIsBounded := by
  intro s legal st cnt noReset
  have polling : s.regs.st.isPolling = true := s.regs.st.isPolling_iff.2 st
  refine core_run_reaches (Q := fun σ => σ.st = s.regs.st ∧ σ.cnt ≤ s.cfg.ceiling)
    (Goal := fun σ => σ.st ≠ s.regs.st) (fun σ => s.cfg.ceiling + 1 - σ.cnt)
    (fun σ x noReset => ?_) (fun σ inside => by omega) legal rfl ⟨rfl, by omega⟩ (Nat.sub_le ..) noReset
  rintro ⟨same, within⟩
  rw [← same] at polling
  obtain leaves | ⟨eq, within⟩ := (moves_blockStep s.cfg σ noReset).of_polling polling
  · exact .inl (same ▸ leaves)
  · rw [eq, Regs.waited_st, Regs.waited_cnt]
    exact .inr ⟨⟨same, within⟩, by omega⟩

/-! ### The longest exchange (R76) -/

/-- The waits still to come, the present one left out. -/
def Regs.waitsLeft (σ : Regs) : Nat :=
  match σ.st with
  | .startLow | .startHigh => 81
  | .awaitAck => 80
  | .waitHigh => 2 * (39 - σ.i.val) + 1
  | .measureHigh => 2 * (39 - σ.i.val)
  | .idle | .done | .failed => 0

/-- The most steps the block stays in the present part of the exchange: the start sequence or one wait. -/
def Regs.ticksLeft (c : Config) (σ : Regs) : Nat :=
  match σ.st with
  | .startLow => c.tLowTicks - σ.tmr + c.tHighTicks
  | .startHigh => c.tHighTicks - σ.tmr
  | .awaitAck | .waitHigh | .measureHigh => c.ceiling + 1 - σ.cnt
  | .idle | .done | .failed => 0

/-- The most steps an exchange has left. -/
def Regs.stepsLeft (c : Config) (σ : Regs) : Nat := σ.ticksLeft c + σ.waitsLeft * (c.ceiling + 1)

theorem Inv.ticksLeft_pos {c : Config} {σ : Regs} (inv : Inv c σ) (busy : σ.busy = true) : 0 < σ.ticksLeft c := by
  have cnt := inv.countersBounded.1
  obtain ⟨low, high, -⟩ := inv.timerBounded
  unfold Regs.ticksLeft
  cases st : σ.st with
  | startLow => have := low st; simp only; omega
  | startHigh => have := high st; simp only; omega
  | awaitAck | waitHigh | measureHigh => simp only; omega
  | idle | done | failed => simp [Regs.busy, st] at busy

/-- A tick within the present part. -/
theorem stepsLeft_lt_of_tick {c : Config} {σ τ : Regs} (ticks : τ.ticksLeft c < σ.ticksLeft c)
    (waits : τ.waitsLeft = σ.waitsLeft) : τ.stepsLeft c < σ.stepsLeft c := by
  rw [Regs.stepsLeft, Regs.stepsLeft, waits]
  omega

/-- A step to the next wait. -/
theorem stepsLeft_lt_of_next_wait {c : Config} {σ τ : Regs} (some : 0 < σ.ticksLeft c)
    (ticks : τ.ticksLeft c = c.ceiling + 1) (waits : τ.waitsLeft + 1 = σ.waitsLeft) :
    τ.stepsLeft c < σ.stepsLeft c := by
  rw [Regs.stepsLeft, Regs.stepsLeft, ← waits, ticks, Nat.succ_mul]
  omega

/-- Every move of an exchange ends it or brings its end nearer. -/
theorem Moves.of_busy {c : Config} {σ τ : Regs} (move : Moves c σ τ) (inv : Inv c σ) (busy : σ.busy = true) :
    τ.done = true ∨ (τ.busy = true ∧ τ.stepsLeft c < σ.stepsLeft c) := by
  have some := inv.ticksLeft_pos busy
  obtain ⟨low, high, -⟩ := inv.timerBounded
  cases move with
  | begins holding | holds holding => simp [busy_eq_not_holding, holding] at busy
  | drivesLow st =>
    have within := low st
    refine .inr ⟨by simp [Regs.busy, st], stepsLeft_lt_of_tick ?_ rfl⟩
    simp only [Regs.ticksLeft, st]
    omega
  | endsLow st last =>
    refine .inr ⟨rfl, stepsLeft_lt_of_tick ?_ (by simp only [Regs.waitsLeft, st])⟩
    simp only [Regs.ticksLeft, st]
    omega
  | drivesHigh st =>
    have within := high st
    refine .inr ⟨by simp [Regs.busy, st], stepsLeft_lt_of_tick ?_ rfl⟩
    simp only [Regs.ticksLeft, st]
    omega
  | endsHigh st => exact .inr ⟨rfl, stepsLeft_lt_of_next_wait some rfl (by simp only [Regs.waitsLeft, st])⟩
  | waits polling within =>
    refine .inr ⟨busy, stepsLeft_lt_of_tick ?_ rfl⟩
    obtain st | st | st := σ.st.isPolling_iff.1 polling <;> simp only [Regs.ticksLeft, Regs.waited, st] <;> omega
  | fails => exact .inl rfl
  | acks st =>
    have first : σ.i = 0 := (inv.freshBeforeFirstBit (.inr (.inr st))).1
    exact .inr ⟨rfl, stepsLeft_lt_of_next_wait some rfl (by simp [Regs.waitsLeft, st, first])⟩
  | rises st => exact .inr ⟨rfl, stepsLeft_lt_of_next_wait some rfl (by simp only [Regs.waitsLeft, st])⟩
  | falls b st more =>
    have index := index_succ more
    refine .inr ⟨rfl, stepsLeft_lt_of_next_wait some rfl ?_⟩
    simp only [Regs.waitsLeft, st]
    omega
  | finishes => exact .inl rfl

/-- The step that accepts a START (R72). -/
theorem blockStep_accepts (c : Config) {σ : Regs} {x : Input} (free : σ.busy = false) (start : x.start = true)
    (noReset : x.rst = false) : blockStep c σ x = startExchange σ := by
  rw [blockStep_of_accepted c free start, noReset]
  rfl

/-- Settles O49: the step that accepts START leaves the rank of a whole exchange, and the invariants make every further
step lower it. -/
theorem everyExchangeEnds : Obligations.EveryExchangeEnds := by
  intro s legal free start noReset
  have accepted : blockStep s.cfg s.regs s.input = startExchange s.regs :=
    blockStep_accepts s.cfg free start (noReset 0 (by unfold longestExchange; omega))
  obtain ⟨m, t, -, within, run, done⟩ := core_run_reaches (Q := fun σ => Inv s.cfg σ ∧ σ.busy = true)
    (Goal := fun σ => σ.done = true) (Regs.stepsLeft s.cfg)
    (fun σ x noReset ⟨inv, busy⟩ => ((moves_blockStep s.cfg σ noReset).of_busy inv busy).imp_right
      fun ⟨busy', lower⟩ => ⟨⟨blockStep_keeps_inv inv legal x, busy'⟩, lower⟩)
    (fun σ ⟨inv, busy⟩ => Nat.add_pos_left (inv.ticksLeft_pos busy) _)
    (n := s.cfg.tLowTicks + s.cfg.tHighTicks + 81 * (s.cfg.ceiling + 1))
    (s := (s.setRegs (startExchange s.regs)).advance) legal rfl ⟨inv_startExchange legal s.regs, rfl⟩ le_rfl
    fun k below => by
      rw [State.inputAt_advance]
      exact noReset (k + 1) (by unfold longestExchange; omega)
  refine ⟨m + 1, t, by omega, by omega, ?_, done⟩
  rw [core_run_succ legal, accepted, run]

/-! ### The shortest exchange (R76) -/

/-- The fewest steps before DONE. -/
def Regs.leastToDone (c : Config) (σ : Regs) : Nat :=
  match σ.st with
  | .startLow => c.tLowTicks - σ.tmr + c.tHighTicks + 1 + 2 * (40 - σ.i.val)
  | .startHigh => c.tHighTicks - σ.tmr + 1 + 2 * (40 - σ.i.val)
  | .awaitAck => 1 + 2 * (40 - σ.i.val)
  | .waitHigh => 2 * (40 - σ.i.val)
  | .measureHigh => 2 * (39 - σ.i.val) + 1
  | .done => 0
  | .idle | .failed => 80

/-- The fewest steps before FAILED. -/
def Regs.leastToFailed (c : Config) (σ : Regs) : Nat :=
  match σ.st with
  | .startLow => c.tLowTicks - σ.tmr + c.tHighTicks + c.ceiling + 1
  | .startHigh => c.tHighTicks - σ.tmr + c.ceiling + 1
  | .awaitAck | .waitHigh | .measureHigh => c.ceiling + 1 - σ.cnt
  | .failed => 0
  | .idle | .done => c.ceiling + 1

theorem leastToDone_startExchange (c : Config) (σ : Regs) :
    (startExchange σ).leastToDone c = c.tLowTicks + c.tHighTicks + 81 := rfl

theorem leastToDone_of_done (c : Config) {σ : Regs} (st : σ.st = .done) : σ.leastToDone c = 0 := by
  simp [Regs.leastToDone, st]

theorem leastToFailed_startExchange (c : Config) (σ : Regs) :
    (startExchange σ).leastToFailed c = c.tLowTicks + c.tHighTicks + c.ceiling + 1 := rfl

theorem leastToFailed_of_failed (c : Config) {σ : Regs} (st : σ.st = .failed) : σ.leastToFailed c = 0 := by
  simp [Regs.leastToFailed, st]

theorem Moves.leastToDone_le {c : Config} {σ τ : Regs} (move : Moves c σ τ) :
    σ.leastToDone c ≤ τ.leastToDone c + 1 := by
  cases move with
  | begins holding =>
    rw [leastToDone_startExchange]
    obtain st | st | st := σ.st.isHolding_iff.1 holding <;> simp only [Regs.leastToDone, st] <;> omega
  | holds => omega
  | drivesLow st | endsLow st | drivesHigh st | endsHigh st | acks st | rises st =>
    simp only [Regs.leastToDone, st]
    omega
  | waits => exact Nat.le_succ _
  | fails p polling =>
    obtain st | st | st := σ.st.isPolling_iff.1 polling <;> simp only [Regs.leastToDone, raiseTimeout, st] <;> omega
  | falls b st more =>
    have index := index_succ more
    simp only [Regs.leastToDone, st]
    omega
  | finishes b st last => simp [Regs.leastToDone, st, last]

theorem Moves.leastToFailed_le {c : Config} {σ τ : Regs} (move : Moves c σ τ) :
    σ.leastToFailed c ≤ τ.leastToFailed c + 1 := by
  cases move with
  | begins holding =>
    rw [leastToFailed_startExchange]
    obtain st | st | st := σ.st.isHolding_iff.1 holding <;> simp only [Regs.leastToFailed, st] <;> omega
  | holds => omega
  | drivesLow st | endsLow st | drivesHigh st | endsHigh st | acks st | rises st | falls _ st | finishes _ st =>
    simp only [Regs.leastToFailed, st]
    omega
  | waits polling | fails _ polling =>
    obtain st | st | st := σ.st.isPolling_iff.1 polling <;>
      simp only [Regs.leastToFailed, Regs.waited, raiseTimeout, st] <;> omega

/-- A rank that no move lowers by more than one is lowered by a run by no more than its steps. -/
theorem le_runBlock_add_length {c : Config} {rank : Regs → Nat} (slow : ∀ σ τ, Moves c σ τ → rank σ ≤ rank τ + 1)
    (σ : Regs) {xs : List Input} (noReset : ∀ x ∈ xs, x.rst = false) :
    rank σ ≤ rank (runBlock c σ xs) + xs.length := by
  induction xs generalizing σ with
  | nil => exact le_rfl
  | cons x xs ih =>
    obtain ⟨noResetX, rest⟩ := List.forall_mem_cons.1 noReset
    have first := slow σ _ (moves_blockStep c σ noResetX)
    have others := ih (blockStep c σ x) rest
    rw [runBlock, List.length_cons]
    omega

/-- The registers of a run that begins with an accepted START are those of the exchange it begins. -/
theorem regs_of_accepted_run {s t : State} {n : Nat} (legal : s.cfg.Wf) (free : s.regs.busy = false)
    (start : s.input.start = true) (noReset : ∀ k, k < n + 1 → (s.inputAt k).rst = false)
    (run : Sys2Proof.core.run (n + 1) s = .next t) :
    ∃ xs : List Input, xs.length = n ∧ (∀ x ∈ xs, x.rst = false) ∧
      t.regs = runBlock s.cfg (startExchange s.regs) xs := by
  have accepted := blockStep_accepts s.cfg free start (noReset 0 (by omega))
  have ahead := State.forall_mem_inputsAhead (P := fun x => x.rst = false) noReset
  rw [core_run_eq _ s legal] at run
  cases run
  rw [s.inputsAhead_succ n s.regs] at ahead ⊢
  exact ⟨_, by simp [State.inputsAhead], (List.forall_mem_cons.1 ahead).2, by rw [runBlock, accepted]⟩

/-- Settles O50: START leaves the whole rank, a step lowers it by at most one, and it is 0 at the end. -/
theorem noExchangeIsShorter : Obligations.NoExchangeIsShorter := by
  intro s t n legal free start noReset some run
  obtain ⟨m, rfl⟩ : ∃ m, n = m + 1 := ⟨n - 1, by omega⟩
  obtain ⟨xs, rfl, noReset', regs⟩ := regs_of_accepted_run legal free start noReset run
  have toDone := le_runBlock_add_length (c := s.cfg) (fun _ _ => Moves.leastToDone_le) (startExchange s.regs) noReset'
  have toFailed :=
    le_runBlock_add_length (c := s.cfg) (fun _ _ => Moves.leastToFailed_le) (startExchange s.regs) noReset'
  rw [leastToDone_startExchange, ← regs] at toDone
  rw [leastToFailed_startExchange, ← regs] at toFailed
  constructor
  · intro early done
    rw [leastToDone_of_done _ done] at toDone
    omega
  · intro early failed
    rw [leastToFailed_of_failed _ failed] at toFailed
    omega

end Sys2Proof.Machine
end

section
/-! PROOFS. A whole exchange (R35, R82, R91): the registers during the start sequence, the line after it, a pulse and a
run of pulses read into the frame, and the obligations O51, O55 and O57 assembled from these facts. -/

namespace Sys2Proof.Machine

/-! ### The start sequence (R80 to R82) -/

/-- The two timed drives: the state, its number of ticks, and the state after it. -/
inductive Drives (c : Config) : St → Nat → St → Prop
  | low : Drives c .startLow c.tLowTicks .startHigh
  | high : Drives c .startHigh c.tHighTicks .awaitAck

section Drive
variable {c : Config} {σ : Regs} {ticks : Nat} {next : St} (drive : Drives c σ.st ticks next) (cnt : σ.cnt = 0)
include drive cnt

/-- One tick of a drive. -/
theorem blockStep_of_drives {x : Input} (noReset : x.rst = false) :
    blockStep c σ x =
      if σ.tmr + 1 = ticks then { σ with st := next, tmr := 0 } else { σ with tmr := σ.tmr + 1 } := by
  obtain ⟨st, i, frame, tmr, n, dur, fphase⟩ := σ
  cases cnt
  rw [blockStep_of_noReset c _ noReset]
  cases drive <;> rfl

theorem runBlock_within_drive {xs : List Input} (noReset : ∀ x ∈ xs, x.rst = false)
    (within : σ.tmr + xs.length < ticks) : runBlock c σ xs = { σ with tmr := σ.tmr + xs.length } := by
  induction xs generalizing σ with
  | nil => rfl
  | cons x xs ih =>
    obtain ⟨noResetX, rest⟩ := List.forall_mem_cons.1 noReset
    rw [List.length_cons] at within ⊢
    rw [runBlock, blockStep_of_drives drive cnt noResetX, if_neg (by omega),
      ih (σ := { σ with tmr := σ.tmr + 1 }) drive cnt rest (by simp only; omega)]
    simp only [Nat.add_assoc, Nat.add_comm 1]

/-- A drive entered with the timer at 0 lasts exactly its ticks. -/
theorem runBlock_whole_drive {xs : List Input} (noReset : ∀ x ∈ xs, x.rst = false) (fresh : σ.tmr = 0)
    (some : 1 ≤ ticks) (length : xs.length = ticks) : runBlock c σ xs = { σ with st := next, tmr := 0 } := by
  obtain ⟨ys, x, rfl⟩ : ∃ ys x, xs = ys ++ [x] := (List.eq_nil_or_concat' xs).resolve_left fun empty => by
    simp [empty] at length
    omega
  rw [List.length_append, List.length_singleton] at length
  obtain ⟨before, last⟩ := List.forall_mem_append.1 noReset
  rw [runBlock_append, runBlock_within_drive drive cnt before (by omega), runBlock, runBlock,
    blockStep_of_drives (σ := { σ with tmr := σ.tmr + ys.length }) drive cnt (last x (List.mem_singleton_self x)),
    if_pos (by simp only; omega)]

end Drive

/-- The registers of an exchange in its start sequence. -/
abbrev startRegs (st : St) (tmr : Nat) : Regs := ⟨st, 0, 0#40, tmr, 0, 0, .none⟩

section StartSequence
variable {c : Config} {xs : List Input} (noReset : ∀ x ∈ xs, x.rst = false) (σ : Regs)
include noReset

theorem runBlock_in_startLow (within : xs.length < c.tLowTicks) :
    runBlock c (startExchange σ) xs = startRegs .startLow xs.length := by
  rw [runBlock_within_drive (σ := startExchange σ) .low rfl noReset (by simpa [startExchange_eq] using within),
    startExchange_eq]
  simp

theorem runBlock_startLow_ends (legal : c.Wf) (length : xs.length = c.tLowTicks) :
    runBlock c (startExchange σ) xs = startRegs .startHigh 0 :=
  runBlock_whole_drive (σ := startExchange σ) .low rfl noReset rfl legal.2.1 length

/-- Past the Low drive, the High drive begins anew. -/
theorem runBlock_past_startLow (legal : c.Wf) (past : c.tLowTicks ≤ xs.length) :
    runBlock c (startExchange σ) xs = runBlock c (startRegs .startHigh 0) (xs.drop c.tLowTicks) := by
  have low : ∀ x ∈ xs.take c.tLowTicks, x.rst = false := fun x mem => noReset x (List.mem_of_mem_take mem)
  conv_lhs => rw [← List.take_append_drop c.tLowTicks xs]
  rw [runBlock_append, runBlock_startLow_ends low σ legal (by simp [past])]

theorem runBlock_in_startHigh (legal : c.Wf) (past : c.tLowTicks ≤ xs.length)
    (within : xs.length < c.tLowTicks + c.tHighTicks) :
    runBlock c (startExchange σ) xs = startRegs .startHigh (xs.length - c.tLowTicks) := by
  have high : ∀ x ∈ xs.drop c.tLowTicks, x.rst = false := fun x mem => noReset x (List.mem_of_mem_drop mem)
  rw [runBlock_past_startLow noReset σ legal past,
    runBlock_within_drive (σ := startRegs .startHigh 0) .high rfl high (by simp; omega)]
  simp

theorem runBlock_startSequence (legal : c.Wf) (length : xs.length = c.tLowTicks + c.tHighTicks) :
    runBlock c (startExchange σ) xs = startRegs .awaitAck 0 := by
  have high : ∀ x ∈ xs.drop c.tLowTicks, x.rst = false := fun x mem => noReset x (List.mem_of_mem_drop mem)
  rw [runBlock_past_startLow noReset σ legal (by omega)]
  exact runBlock_whole_drive (σ := startRegs .startHigh 0) .high rfl high rfl legal.2.2.1 (by simp [length])

end StartSequence

/-! ### The line after the start sequence (R82) -/

/-- A released line stays released as long as no START is accepted. -/
theorem blockStep_released (c : Config) {σ : Regs} {x : Input} (noReset : x.rst = false) (released : σ.lineDrive = none)
    (notAccepted : σ.busy = true ∨ x.start = false) : (blockStep c σ x).lineDrive = none := by
  cases busy : σ.busy with
  | false =>
    have noStart : x.start = false := notAccepted.resolve_left (by simp [busy])
    rwa [blockStep_holding_quiet c (by simpa [busy_eq_not_holding] using busy) ⟨noReset, noStart⟩]
  | true =>
    rw [Regs.lineDrive_eq_none_iff] at released ⊢
    obtain ⟨notLow, notHigh⟩ := released
    have move := moves_blockStep c σ noReset
    generalize blockStep c σ x = τ at move ⊢
    cases move with
    | begins holding => simp [busy_eq_not_holding, holding] at busy
    | holds | waits => exact ⟨notLow, notHigh⟩
    | drivesLow st | endsLow st => exact absurd st notLow
    | drivesHigh st | endsHigh st => exact absurd st notHigh
    | fails | acks | rises | falls | finishes => exact ⟨nofun, nofun⟩

/-- The last step of a run. -/
theorem core_run_last {s u t : State} {m : Nat} (legal : s.cfg.Wf) (before : Sys2Proof.core.run m s = .next u)
    (run : Sys2Proof.core.run (m + 1) s = .next t) :
    u.input = s.inputAt m ∧ t.regs = blockStep s.cfg u.regs u.input := by
  have cfg : u.cfg = s.cfg := by
    rw [core_run_eq m s legal] at before
    cases before
    rfl
  rw [core_run_add legal before 1, core_run_succ (cfg ▸ legal) 0] at run
  cases run
  exact ⟨inputAt_of_core_run legal before 0, by rw [← cfg]; rfl⟩

/-- After the start sequence the line is released in every state up to the next accepted START. -/
theorem released_after_startSequence {s : State} {n : Nat} (legal : s.cfg.Wf) (free : s.regs.busy = false)
    (start : s.input.start = true) (noReset : ∀ k, k < n → (s.inputAt k).rst = false)
    (notAccepted : ∀ k u, s.cfg.tLowTicks + s.cfg.tHighTicks < k → k < n → Sys2Proof.core.run k s = .next u →
      u.regs.busy = true ∨ u.input.start = false) {m : Nat} (after : s.cfg.tLowTicks + s.cfg.tHighTicks + 1 ≤ m)
    (within : m ≤ n) {t : State} (run : Sys2Proof.core.run m s = .next t) : t.regs.lineDrive = none := by
  induction m, after using Nat.le_induction generalizing t with
  | base =>
    obtain ⟨xs, length, noReset', regs⟩ :=
      regs_of_accepted_run legal free start (fun k below => noReset k (by omega)) run
    rw [regs, runBlock_startSequence noReset' s.regs legal length, Regs.lineDrive_eq_none_iff]
    exact ⟨nofun, nofun⟩
  | succ m after ih =>
    have before := core_run_eq m s legal
    obtain ⟨input, regs⟩ := core_run_last legal before run
    rw [regs]
    exact blockStep_released s.cfg (by rw [input]; exact noReset m within) (ih (by omega) before)
      (notAccepted m _ after within before)

/-- Settles O51: the registers of the start sequence are known step by step, and after it nothing drives the line. -/
theorem startSequenceWaveform : Obligations.StartSequenceWaveform := by
  intro s t n legal free start noReset run
  refine ⟨fun none => ?_, fun some low => ?_, fun past high => ?_, fun past notAccepted =>
    released_after_startSequence legal free start noReset notAccepted past le_rfl run⟩
  · subst none
    cases run
    exact Regs.lineDrive_of_holding (by simpa [busy_eq_not_holding] using free)
  · obtain ⟨m, rfl⟩ : ∃ m, n = m + 1 := ⟨n - 1, by omega⟩
    obtain ⟨xs, rfl, noReset', regs⟩ := regs_of_accepted_run legal free start noReset run
    rw [regs, runBlock_in_startLow noReset' s.regs low, Regs.lineDrive_eq_low_iff]
  · obtain ⟨m, rfl⟩ : ∃ m, n = m + 1 := ⟨n - 1, by omega⟩
    obtain ⟨xs, rfl, noReset', regs⟩ := regs_of_accepted_run legal free start noReset run
    rw [regs, runBlock_in_startHigh noReset' s.regs legal (Nat.le_of_lt_succ past) high, Regs.lineDrive_eq_high_iff]

/-! ### A pulse (R91 items 3 to 5) -/

/-- The bit a pulse stands for (R51, R89). -/
def Pulse.bit (c : Config) (p : Pulse) : Bool := decide (c.threshTicks < p.2)

/-- The samples of a pulse after its first Low sample, up to the Low sample that ends it. -/
def Pulse.tailSamples (p : Pulse) : List Level :=
  List.replicate (p.1 - 1) .low ++ List.replicate p.2 .high ++ [.low]

/-- The Low run is waited out, the High run is measured, and the fall appends its bit. -/
theorem runBlock_pulse {c : Config} {σ : Regs} {p : Pulse} {xs : List Input} (st : σ.st = .waitHigh) (cnt : σ.cnt = 0)
    (passes : p.Passes c) (samples : Samples xs p.tailSamples) :
    runBlock c σ xs = appendBit σ (p.bit c) := by
  obtain ⟨lam, h⟩ := p
  obtain ⟨lowSome, lowFits, highSome, highFits⟩ : 1 ≤ lam ∧ lam ≤ c.ceiling + 1 ∧ 1 ≤ h ∧ h ≤ c.ceiling + 1 := passes
  obtain ⟨n, rfl⟩ : ∃ n, h = n + 1 := ⟨h - 1, by omega⟩
  obtain ⟨ys, fall, rfl, runs, falls⟩ := samples.split
  obtain ⟨lows, highs, rfl, lowRun, highRun⟩ := runs.split
  obtain ⟨rise, more, rfl, noResetRise, high, moreHighs⟩ := highRun.uncons
  obtain ⟨x, _, rfl, noResetFall, low, empty⟩ := falls.uncons
  have wait : WaitsOut σ.st .low .waitHigh := st ▸ .waitHigh
  have waited : runBlock c σ lows = { σ with cnt := lam - 1 } := by
    rw [runBlock_of_waitsOut wait lowRun (by omega), Regs.waited_of_ne_measureHigh (by simp [st]) cnt]
  have risen : blockStep c { σ with cnt := lam - 1 } rise = { σ with st := .measureHigh, cnt := 0, dur := 0 } :=
    blockStep_waitHigh_high c st noResetRise high
  have measured : runBlock c { σ with st := .measureHigh, cnt := 0, dur := 0 } more =
      { σ with st := .measureHigh, cnt := n, dur := n } := by
    rw [runBlock_of_waitsOut .measureHigh moreHighs (by simp only; omega)]
    simp [Regs.waited]
  have fallen : blockStep c { σ with st := .measureHigh, cnt := n, dur := n } x =
      appendBit σ (Pulse.bit c (lam, n + 1)) := by
    rw [blockStep_of_noReset c _ noResetFall, low]
    rfl
  simp only [empty.nil, runBlock_append, runBlock, waited, risen, measured, fallen]

/-- Settles O55: the pulse appends its bit, and the fall is split at the last bit. -/
theorem pulseAppendsItsBit : Obligations.PulseAppendsItsBit := by
  intro s p polls rest legal st cnt passes inputs noReset lines
  have samples : Samples polls p.tailSamples := ⟨noReset, lines⟩
  have length : polls.length = p.1 + p.2 := by
    rw [samples.length_eq]
    simp [Pulse.tailSamples]
    omega
  obtain ⟨t, run, left, regs⟩ := core_run_of_inputs legal inputs length (runBlock_pulse st cnt passes samples)
  refine ⟨t, run, left, ?_⟩
  rw [regs]
  obtain ⟨last, eq⟩ | ⟨more, eq⟩ := appendBit_cases s.regs (p.bit s.cfg) <;> rw [eq]
  · simp [last, Pulse.bit]
  · have index := index_succ more
    have before : s.regs.i.val ≠ 39 := by omega
    exact ⟨by simp only [index]; omega, by simp [before, Pulse.bit]⟩

/-! ### A run of pulses (R35, R91) -/

/-- The frame after successive pulses. -/
def readPulses (c : Config) : Frame → List Pulse → Frame
  | F, [] => F
  | F, p :: ps => readPulses c (append F (p.bit c)) ps

/-- A bit that was in the frame has moved up by the number of pulses. -/
theorem readPulses_getLsbD_add (c : Config) (ps : List Pulse) (F : Frame) {j : Nat} (inFrame : j + ps.length < 40) :
    (readPulses c F ps).getLsbD (j + ps.length) = F.getLsbD j := by
  induction ps generalizing F j with
  | nil => rfl
  | cons p ps ih =>
    rw [List.length_cons] at inFrame ⊢
    rw [readPulses, show j + (ps.length + 1) = j + 1 + ps.length by omega, ih _ (by omega),
      append_getLsbD_succ F _ (by omega)]

/-- The bit of pulse `k` stands below those of the pulses before it. -/
theorem readPulses_getLsbD (c : Config) {ps : List Pulse} (F : Frame) {k : Nat} {p : Pulse} (fits : ps.length ≤ 40)
    (pulse : ps[k]? = some p) : (readPulses c F ps).getLsbD (ps.length - 1 - k) = p.bit c := by
  induction ps generalizing F k with
  | nil => simp at pulse
  | cons q ps ih =>
    rw [List.length_cons] at fits ⊢
    cases k with
    | zero =>
      obtain rfl : q = p := by simpa using pulse
      have moved := readPulses_getLsbD_add c ps (append F (q.bit c)) (j := 0) (by omega)
      rwa [Nat.zero_add, append_getLsbD_zero] at moved
    | succ k =>
      have place : ps.length + 1 - 1 - (k + 1) = ps.length - 1 - k := by omega
      rw [place]
      exact ih _ (by omega) pulse

theorem waveform_length (ps : List Pulse) : (waveform ps).length = waveformTicks ps := by
  induction ps with
  | nil => rfl
  | cons p ps ih => simp [waveform, waveformTicks, ih, Nat.add_assoc]

/-- The samples of successive pulses and the Low sample that ends the last one begin with a Low sample. -/
theorem waveform_append_low {c : Config} {ps : List Pulse} (passes : ∀ p ∈ ps, p.Passes c) :
    ∃ more, waveform ps ++ [.low] = .low :: more := by
  cases ps with
  | nil => exact ⟨[], rfl⟩
  | cons p ps =>
    obtain ⟨n, low⟩ : ∃ n, p.1 = n + 1 := ⟨p.1 - 1, by have := (passes p List.mem_cons_self).1; omega⟩
    exact ⟨_, by rw [waveform, low, List.replicate_succ, List.cons_append, List.cons_append, List.cons_append]⟩

/-- The Low sample that ends a pulse is the first one of the next (R91 item 2). -/
theorem waveform_cons_append_low {p : Pulse} {ps : List Pulse} {more : List Level} (some : 1 ≤ p.1)
    (next : waveform ps ++ [.low] = .low :: more) :
    waveform (p :: ps) ++ [.low] = .low :: (p.tailSamples ++ more) := by
  obtain ⟨n, low⟩ : ∃ n, p.1 = n + 1 := ⟨p.1 - 1, by omega⟩
  rw [waveform, List.append_assoc, next, Pulse.tailSamples, low, List.replicate_succ]
  simp

/-- From WAIT_HIGH, with the first Low sample used up, the pulses up to index 39 fill the frame and end in DONE. -/
theorem runBlock_pulses {c : Config} {ps : List Pulse} {σ : Regs} {xs : List Input} {samples : List Level}
    (st : σ.st = .waitHigh) (cnt : σ.cnt = 0) (count : σ.i.val + ps.length = 40) (passes : ∀ p ∈ ps, p.Passes c)
    (wave : waveform ps ++ [.low] = .low :: samples) (polls : Samples xs samples) :
    runBlock c σ xs = { σ with st := .done, i := 39, frame := readPulses c σ.frame ps, cnt := 0, dur := 0 } := by
  induction ps generalizing σ xs samples with
  | nil => exact absurd count (by simp only [List.length_nil]; omega)
  | cons p ps ih =>
    obtain ⟨passesP, passesPs⟩ := List.forall_mem_cons.1 passes
    obtain ⟨more, next⟩ := waveform_append_low passesPs
    rw [waveform_cons_append_low passesP.1 next] at wave
    cases wave
    obtain ⟨ys, zs, rfl, pulse, rest⟩ := polls.split
    rw [runBlock_append, runBlock_pulse st cnt passesP pulse, readPulses]
    rw [List.length_cons] at count
    obtain ⟨last, eq⟩ | ⟨notLast, eq⟩ := appendBit_cases σ (p.bit c) <;> rw [eq]
    · obtain rfl : ps = [] := List.eq_nil_of_length_eq_zero (by simp only [last] at count; omega)
      cases next
      rw [rest.nil, ← last]
      rfl
    · have index := index_succ notLast
      exact ih (σ := { σ with st := .waitHigh, i := σ.i + 1, frame := append σ.frame (p.bit c), cnt := 0, dur := 0 })
        rfl rfl (by simp only; omega) passesPs next rest

/-- From AWAIT_ACK: `a` High polls, forty pulses that pass and a Low poll end in DONE with the forty bits. -/
theorem runBlock_awaitAck_pulses {c : Config} {a : Nat} {ps : List Pulse} {xs : List Input} (within : a ≤ c.ceiling)
    (forty : ps.length = 40) (passes : ∀ p ∈ ps, p.Passes c)
    (polls : Samples xs (List.replicate a .high ++ waveform ps ++ [.low])) :
    runBlock c (startRegs .awaitAck 0) xs = ⟨.done, 39, readPulses c 0#40 ps, 0, 0, 0, .none⟩ := by
  obtain ⟨samples, wave⟩ := waveform_append_low passes
  rw [List.append_assoc, wave] at polls
  obtain ⟨highs, ys, rfl, highRun, rest⟩ := polls.split
  obtain ⟨x, zs, rfl, noReset, low, pulses⟩ := rest.uncons
  have waited : runBlock c (startRegs .awaitAck 0) highs = { startRegs .awaitAck 0 with cnt := a } := by
    rw [runBlock_of_waitsOut .awaitAck highRun (by simpa using within), Regs.waited_of_ne_measureHigh (by simp) rfl]
  have acked : blockStep c { startRegs .awaitAck 0 with cnt := a } x = startRegs .waitHigh 0 :=
    blockStep_awaitAck_low c rfl noReset low
  rw [runBlock_append, waited, runBlock, acked,
    runBlock_pulses (σ := startRegs .waitHigh 0) rfl rfl (by simpa using forty) passes wave pulses]

/-- Settles O57: START, the start sequence, the acknowledgement and the pulses one after another, over all the inputs
that are laid down. -/
theorem exchangeReadsTheFrame : Obligations.ExchangeReadsTheFrame := by
  intro s a pulses first lead polls rest legal free inputs noResetFirst start leadLength noReset within forty passes
    wave
  obtain ⟨noResetLead, noResetPolls⟩ := List.forall_mem_append.1 noReset
  have samples : Samples polls (List.replicate a .high ++ waveform pulses ++ [.low]) := ⟨noResetPolls, wave⟩
  have length : (first :: (lead ++ polls)).length =
      1 + s.cfg.tLowTicks + s.cfg.tHighTicks + a + waveformTicks pulses + 1 := by
    simp [samples.length_eq, leadLength, waveform_length]
    omega
  have regs : runBlock s.cfg s.regs (first :: (lead ++ polls)) =
      ⟨.done, 39, readPulses s.cfg 0#40 pulses, 0, 0, 0, .none⟩ := by
    rw [runBlock, blockStep_accepts s.cfg free start noResetFirst, runBlock_append,
      runBlock_startSequence noResetLead s.regs legal leadLength,
      runBlock_awaitAck_pulses within forty passes samples]
  obtain ⟨t, run, left, regs⟩ := core_run_of_inputs (xs := first :: (lead ++ polls)) legal inputs length regs
  refine ⟨t, run, left, by rw [regs], fun k p pulse => ?_⟩
  rw [regs, seqBit]
  have bit := readPulses_getLsbD s.cfg 0#40 forty.le pulse
  rwa [forty] at bit

end Sys2Proof.Machine
end
